-- ==== Sys2Proof/Word.lean ====
section
/-! DEFINITION. The block's one word type and its plainest arithmetic (spec/00_scope.md R12). -/

namespace Sys2Proof

/-- A byte: an unsigned 8-bit value (R12). -/
abbrev Byte := BitVec 8

/-- `low8(v)` is `v mod 256` (R12). -/
def low8 (v : Nat) : Byte := BitVec.ofNat 8 (v % 256)

end Sys2Proof
end

