-- ==== Sys2Proof/Config.lean ====
section
/-! DEFINITION. What an implementation fixes: the four open parameters of spec/00_scope.md R9; and the free values, the
buffers' contents after a reset (spec/10_state.md R40). -/

namespace Sys2Proof

/-- The open parameters (R9). `BUF_CAP` must be at least 7 (R9), so it is carried as what it exceeds 7
by, which is `MAX_PAYLOAD` (R10): `bufCap = maxPayload + 7` in Machine/Operands.lean. DEDUCED, safe: log 2. -/
structure Params where
  /-- `MARKER`, the reserved value that delimits a frame. -/
  marker : Byte
  /-- `ACK_CODE`, the command value of an acknowledgment frame. -/
  ackCode : Byte
  /-- `BROADCAST_CODE`, the command value meaning "no ACK expected". -/
  broadcastCode : Byte
  /-- `MAX_PAYLOAD = BUF_CAP - 7`. -/
  maxPayload : Nat
  deriving DecidableEq, Repr, Inhabited

/-- The parameters of the machine right after reset: open (92_eei_decisions D5, D6, D34). No proof can
see a value of them. DESIGN CHOICE, safe: log 1. -/
opaque Config.params : Params

/-- The byte an index of `rx_buf` holds while nothing has written it since the reset of this number: a free value (10_state
R30, R40; 93 row 13: any value). No proof can see one. DESIGN CHOICE, safe: log 7. -/
opaque Config.rxFree : Nat → Nat → Byte

/-- The same of `tx_buf` (10_state R32, R40). DESIGN CHOICE, safe: log 7. -/
opaque Config.txFree : Nat → Nat → Byte

end Sys2Proof
end

