-- ==== Sys2Proof/Machine/Checksum.lean ====
section
/-! DEFINITION. The checksum validator: spec/40_checksum.md. -/

namespace Sys2Proof

/-- The integer sum of a byte list (00_scope R13). -/
def byteSum : List Byte → Nat
  | [] => 0
  | b :: bs => b.toNat + byteSum bs

/-- `compute` (R100). -/
def compute (bytes : List Byte) : Byte :=
  if byteSum bytes > 255 then low8 (byteSum bytes) else BitVec.ofNat 8 (byteSum bytes)

/-- `verify` (R102). -/
def verify (range : List Byte) (claimed : Byte) : Bool := decide (compute range = claimed)

end Sys2Proof
end

