-- ==== Sys2Proof/Syntax.lean ====
section
/-! DEFINITION. The rows of spec/opcode_table.json, and the data their operands carry. -/

namespace Sys2Proof

/-- An event record: its tag followed by its fields, one item each; a payload is its length followed by
its bytes (30_encoding R80, R81). Items are natural numbers because a length is one (R12): log 11. -/
abbrev Record := List Nat

/-- `TxResult` (R82). -/
inductive TxResult where
  | ok
  | payloadTooLarge
  deriving DecidableEq, Repr

/-- `RxOutcome`, internal and never output (R82, 60_exceptions R217). -/
inductive RxOutcome where
  | deliverAck
  | deliverNoack
  | truncated
  | checksumMismatch
  | wrongDestination
  | ackDiscarded
  | bufferOverflow
  deriving DecidableEq, Repr

/-- The fields of a candidate frame that decoded (30_encoding R73, 41_codec R118). The version byte is
read by nothing (R77), so it is not kept. -/
structure Frame where
  dst : Byte
  src : Byte
  cmd : Byte
  payload : List Byte
  deriving DecidableEq, Repr

/-- The command classes of R75. -/
inductive CmdClass where
  | ack
  | noack
  | addressed
  deriving DecidableEq, Repr

/-- One constructor for each row of the opcode table. -/
inductive Instr where
  /-- `RX_BYTE.terminator`: a received byte equal to `MARKER` (R74, R144). -/
  | rxByteTerminator
  /-- `RX_BYTE.data`: a received byte other than `MARKER` (R74, R141, R143). -/
  | rxByteData (b : Byte)
  /-- `FRAME.ack` (R75, R148). -/
  | frameAck (f : Frame)
  /-- `FRAME.noack` (R75, R149). -/
  | frameNoack (f : Frame)
  /-- `FRAME.addressed` (R75, R150). -/
  | frameAddressed (f : Frame)
  /-- `TRANSMIT_ACK`, internal (R175). -/
  | transmitAck (d : Byte)
  /-- `RESET`, tag 0x00 (R240). -/
  | reset
  /-- `RX_BYTE`, tag 0x01 (R140). -/
  | rxByte (b : Byte)
  /-- `TX_DONE`, tag 0x02 (R176 to R178). -/
  | txDone
  /-- `CONFIGURE`, tag 0x03 (R182). -/
  | configure (a : Byte)
  /-- `SET_HANDLER`, tag 0x04 (R183). -/
  | setHandler
  /-- `TRANSMIT`, tag 0x05 (R171 to R173). -/
  | transmit (dst cmd : Byte) (payload : List Byte)
  /-- `TRANSMIT_ERROR`, tag 0x06 (R174). -/
  | transmitError (dst code : Byte)
  /-- `DELIVER_ACCEPT`, tag 0x07 (R180, R181). -/
  | deliverAccept
  /-- `DRIVE`, output tag 0x81 (R81). -/
  | drive (d : Bool)
  /-- `SEND_BYTE`, output tag 0x82 (R81). -/
  | sendByte (b : Byte)
  /-- `DELIVER`, output tag 0x83 (R81). -/
  | deliver (src cmd : Byte) (payload : List Byte)
  /-- `TX_RESULT`, output tag 0x84 (R81). -/
  | txResult (r : TxResult)
  deriving DecidableEq, Repr

end Sys2Proof
end

