-- ==== Sys2Proof/Machine/Operands.lean ====
section
/-! DEFINITION. Constants, derived parameters and operand classes: spec/00_scope.md R8, R10, spec/30_encoding.md R74, R75, R82. -/

namespace Sys2Proof

/-- `VERSION` (R8). -/
def version : Byte := 0x01

/-- `FIXED_OVERHEAD` (R8): the length of a candidate frame with an empty payload. -/
def fixedOverhead : Nat := 6

/-- `BUF_CAP` (R9), from `MAX_PAYLOAD = BUF_CAP - 7` (R10). -/
def Params.bufCap (p : Params) : Nat := p.maxPayload + 7

/-- `ACC_CAP = BUF_CAP - 1` (R10). -/
def Params.accCap (p : Params) : Nat := p.bufCap - 1

/-- A configuration given by its `BUF_CAP` (R9): none when `BUF_CAP` is below 7. -/
def Params.ofBufCap (marker ackCode broadcastCode : Byte) (bufCap : Nat) : Option Params :=
  if bufCap < 7 then none else some ⟨marker, ackCode, broadcastCode, bufCap - 7⟩

/-- The command class of a decoded frame, the tests in the order of R75's rows. -/
def cmdClass (p : Params) (cmd : Byte) : CmdClass :=
  if cmd = p.ackCode then .ack else if cmd = p.broadcastCode then .noack else .addressed

/-- The number of a transmit result (R82). -/
def TxResult.code : TxResult → Nat
  | .ok => 0
  | .payloadTooLarge => 1

/-- The number of a receive outcome (R82). -/
def RxOutcome.code : RxOutcome → Nat
  | .deliverAck => 0
  | .deliverNoack => 1
  | .truncated => 2
  | .checksumMismatch => 3
  | .wrongDestination => 4
  | .ackDiscarded => 5
  | .bufferOverflow => 6

end Sys2Proof
end

