-- ==== Sys2Proof/Machine/Codec.lean ====
section
/-! DEFINITION. The frame codec on byte lists: the wire frame's layout (spec/30_encoding.md R71, R84) and
`decode` (spec/41_codec.md R115 to R120). Writing a frame into `tx_buf` is Machine/Ops.lean's. -/

namespace Sys2Proof

/-- A wire frame's bytes before its checksum (R71, offsets 0 to 4+N). -/
def frameBody (p : Params) (src dst cmd : Byte) (payload : List Byte) : List Byte :=
  p.marker :: dst :: src :: version :: cmd :: payload

/-- The wire frame (R71): the body, its checksum, the end marker. -/
def wireFrame (p : Params) (src dst cmd : Byte) (payload : List Byte) : List Byte :=
  frameBody p src dst cmd payload ++ [compute (frameBody p src dst cmd payload), p.marker]

/-- Why `decode` fails (R116, R117). -/
inductive DecodeError where
  | truncated
  | checksumMismatch
  deriving DecidableEq, Repr

/-- `decode` (R118). The first clause is `L >= 6`: six positions, `F[0]` (the start marker, never
validated: R72) to `F[4]` and at least the checksum's; the last byte is the claimed checksum, the rest of `tail`
the payload. `F[3]`, the version, is read by nothing but the sum (R77). -/
def decodeFrame : List Byte → Except DecodeError Frame
  | start :: dst :: src :: ver :: cmd :: c :: rest =>
    let tail := c :: rest
    let payload := tail.dropLast
    if verify (start :: dst :: src :: ver :: cmd :: payload) (tail.getLast (List.cons_ne_nil c rest)) then
      .ok ⟨dst, src, cmd, payload⟩
    else .error .checksumMismatch
  | _ => .error .truncated

end Sys2Proof
end

