-- ==== Sys2Proof/WellFormed.lean ====
section
/-! DEFINITION. Which terms of Instr are rows of the opcode table under given parameters: a byte row or a
frame row carries an operand of its own class (spec/30_encoding.md R73 to R75). -/

namespace Sys2Proof

/-- A decoded candidate's payload has at most `ACC_CAP - 5` bytes (R73). -/
def Frame.fits (p : Params) (f : Frame) : Bool := decide (f.payload.length + 5 ≤ p.accCap)

/-- The operand belongs to the row (R74, R75); every other row takes every operand (R80, R81). -/
def Instr.wellFormed (p : Params) : Instr → Bool
  | .rxByteTerminator => true
  | .rxByteData b => decide (b ≠ p.marker)
  | .frameAck f => decide (cmdClass p f.cmd = .ack) && f.fits p
  | .frameNoack f => decide (cmdClass p f.cmd = .noack) && f.fits p
  | .frameAddressed f => decide (cmdClass p f.cmd = .addressed) && f.fits p
  | .transmitAck _ => true
  | .reset => true
  | .rxByte _ => true
  | .txDone => true
  | .configure _ => true
  | .setHandler => true
  | .transmit _ _ _ => true
  | .transmitError _ _ => true
  | .deliverAccept => true
  | .drive _ => true
  | .sendByte _ => true
  | .deliver _ _ _ => true
  | .txResult _ => true

end Sys2Proof
end

