-- ==== Sys2Proof/Decode.lean ====
section
/-! DEFINITION. Decoding and encoding, one function for each of the table's formats (spec/30_encoding.md R70, R74, R75,
R80, R81, R85), and the two over all formats. -/

namespace Sys2Proof

/-- Why words are no instruction, by name. Every one is a refusal, which is safe. -/
inductive Reject where
  /-- The record has no tag. -/
  | emptyRecord
  /-- The tag names no event (R85). -/
  | unknownTag (tag : Nat)
  /-- The tag names an output event, which the block never decodes (R85); raised for inputs only. -/
  | outputTag (tag : Nat)
  /-- A field the tag calls for is missing (log 17). -/
  | missingField (tag : Nat)
  /-- An item that stands for a byte is above 255 (log 17). -/
  | notAByte (item : Nat)
  /-- `DRIVE`'s field is neither 0 nor 1 (R81). -/
  | notABit (item : Nat)
  /-- `TX_RESULT`'s field is no code of R82. -/
  | notAResultCode (item : Nat)
  /-- Items are left after the last field (log 17). -/
  | trailingItems
  /-- A candidate frame is shorter than `FIXED_OVERHEAD` (R116). -/
  | candidateTruncated
  /-- A candidate frame's checksum does not match (R117). -/
  | candidateChecksum
  deriving DecidableEq, Repr

/-! ### Event records -/

/-- One item as a byte. -/
def decodeByte (item : Nat) : Except Reject Byte :=
  if item < 256 then .ok (BitVec.ofNat 8 item) else .error (.notAByte item)

/-- The byte field at the head of the items. -/
def takeByte (tag : Nat) : List Nat → Except Reject (Byte × List Nat)
  | [] => .error (.missingField tag)
  | x :: xs =>
    match decodeByte x with
    | .error e => .error e
    | .ok b => .ok (b, xs)

/-- `n` byte fields. -/
def takeBytes (tag : Nat) : Nat → List Nat → Except Reject (List Byte × List Nat)
  | 0, xs => .ok ([], xs)
  | n + 1, xs =>
    match takeByte tag xs with
    | .error e => .error e
    | .ok (b, xs₁) =>
      match takeBytes tag n xs₁ with
      | .error e => .error e
      | .ok (bs, xs₂) => .ok (b :: bs, xs₂)

/-- A payload: its length, then its bytes (R80). -/
def takePayload (tag : Nat) : List Nat → Except Reject (List Byte × List Nat)
  | [] => .error (.missingField tag)
  | n :: xs => takeBytes tag n xs

/-- Two byte fields and a payload, the fields of `TRANSMIT` and of `DELIVER`. -/
def takeMessage (tag : Nat) (mk : Byte → Byte → List Byte → Instr) (xs : List Nat) :
    Except Reject (Instr × List Nat) :=
  match takeByte tag xs with
  | .error e => .error e
  | .ok (x, xs₁) =>
    match takeByte tag xs₁ with
    | .error e => .error e
    | .ok (y, xs₂) =>
      match takePayload tag xs₂ with
      | .error e => .error e
      | .ok (bs, xs₃) => .ok (mk x y bs, xs₃)

/-- One byte field. -/
def takeOne (tag : Nat) (mk : Byte → Instr) (xs : List Nat) : Except Reject (Instr × List Nat) :=
  match takeByte tag xs with
  | .error e => .error e
  | .ok (x, xs₁) => .ok (mk x, xs₁)

/-- Two byte fields. -/
def takeTwo (tag : Nat) (mk : Byte → Byte → Instr) (xs : List Nat) : Except Reject (Instr × List Nat) :=
  match takeByte tag xs with
  | .error e => .error e
  | .ok (x, xs₁) =>
    match takeByte tag xs₁ with
    | .error e => .error e
    | .ok (y, xs₂) => .ok (mk x y, xs₂)

/-- `DRIVE`'s bit (R81). -/
def takeDrive (tag : Nat) : List Nat → Except Reject (Instr × List Nat)
  | [] => .error (.missingField tag)
  | x :: xs => if x = 0 then .ok (.drive false, xs) else if x = 1 then .ok (.drive true, xs) else .error (.notABit x)

/-- `TX_RESULT`'s code (R81, R82). -/
def takeResult (tag : Nat) : List Nat → Except Reject (Instr × List Nat)
  | [] => .error (.missingField tag)
  | x :: xs =>
    if x = 0 then .ok (.txResult .ok, xs)
    else if x = 1 then .ok (.txResult .payloadTooLarge, xs) else .error (.notAResultCode x)

/-- The event at the head of a list of items, and the items after it (R80, R81). -/
def decodePrefix : List Nat → Except Reject (Instr × List Nat)
  | [] => .error .emptyRecord
  | tag :: xs =>
    match tag with
    | 0x00 => .ok (.reset, xs)
    | 0x01 => takeOne tag .rxByte xs
    | 0x02 => .ok (.txDone, xs)
    | 0x03 => takeOne tag .configure xs
    | 0x04 => .ok (.setHandler, xs)
    | 0x05 => takeMessage tag .transmit xs
    | 0x06 => takeTwo tag .transmitError xs
    | 0x07 => .ok (.deliverAccept, xs)
    | 0x81 => takeDrive tag xs
    | 0x82 => takeOne tag .sendByte xs
    | 0x83 => takeMessage tag .deliver xs
    | 0x84 => takeResult tag xs
    | _ => .error (.unknownTag tag)

/-- A whole event record, input or output, as one reads a trace (R80, R81). -/
def decodeRecord (r : Record) : Except Reject Instr :=
  match decodePrefix r with
  | .error e => .error e
  | .ok (i, []) => .ok i
  | .ok (_, _ :: _) => .error .trailingItems

/-- What the block decodes: an input event. Any other tag is not an event and is refused by name (R85). -/
def decodeInput (r : Record) : Except Reject Instr :=
  match r with
  | [] => .error .emptyRecord
  | tag :: _ =>
    if tag ≤ 0x07 then decodeRecord r
    else if 0x81 ≤ tag ∧ tag ≤ 0x84 then .error (.outputTag tag) else .error (.unknownTag tag)

/-! ### Wire bytes and frame commands -/

/-- The class of a received byte (R74). -/
def decodeWireByte (p : Params) (b : Byte) : Instr :=
  if b = p.marker then .rxByteTerminator else .rxByteData b

/-- The class of a decoded frame (R75). -/
def decodeFrameCmd (p : Params) (f : Frame) : Instr :=
  match cmdClass p f.cmd with
  | .ack => .frameAck f
  | .noack => .frameNoack f
  | .addressed => .frameAddressed f

/-! ### All formats -/

/-- The words of an instruction, by the table's format. An internal row has no encoding of its own; it is
selected by `FRAME.addressed` with the operand `d` (R85, R175). -/
inductive Words where
  | event (r : Record)
  | wireByte (b : Byte)
  | frameCmd (candidate : List Byte)
  | internal (d : Byte)
  deriving DecidableEq, Repr

/-- The instruction that words stand for. -/
def decode (p : Params) : Words → Except Reject Instr
  | .event r => decodeRecord r
  | .wireByte b => .ok (decodeWireByte p b)
  | .frameCmd candidate =>
    match decodeFrame candidate with
    | .ok f => .ok (decodeFrameCmd p f)
    | .error .truncated => .error .candidateTruncated
    | .error .checksumMismatch => .error .candidateChecksum
  | .internal d => .ok (.transmitAck d)

/-- A byte list as record items. -/
def encodeBytes (bs : List Byte) : List Nat := bs.map BitVec.toNat

/-- A payload as record items: its length, then its bytes (R80). -/
def encodePayload (bs : List Byte) : List Nat := bs.length :: encodeBytes bs

/-- A decoded frame's candidate (R72), with the version every sender writes (R77): the wire frame without its end marker. -/
def encodeCandidate (p : Params) (f : Frame) : List Byte :=
  frameBody p f.src f.dst f.cmd f.payload ++ [compute (frameBody p f.src f.dst f.cmd f.payload)]

/-- The words of an instruction (R71, R74, R80, R81). -/
def encode (p : Params) : Instr → Words
  | .rxByteTerminator => .wireByte p.marker
  | .rxByteData b => .wireByte b
  | .frameAck f => .frameCmd (encodeCandidate p f)
  | .frameNoack f => .frameCmd (encodeCandidate p f)
  | .frameAddressed f => .frameCmd (encodeCandidate p f)
  | .transmitAck d => .internal d
  | .reset => .event [0x00]
  | .rxByte b => .event [0x01, b.toNat]
  | .txDone => .event [0x02]
  | .configure a => .event [0x03, a.toNat]
  | .setHandler => .event [0x04]
  | .transmit dst cmd payload => .event (0x05 :: dst.toNat :: cmd.toNat :: encodePayload payload)
  | .transmitError dst code => .event [0x06, dst.toNat, code.toNat]
  | .deliverAccept => .event [0x07]
  | .drive d => .event [0x81, d.toNat]
  | .sendByte b => .event [0x82, b.toNat]
  | .deliver src cmd payload => .event (0x83 :: src.toNat :: cmd.toNat :: encodePayload payload)
  | .txResult r => .event [0x84, r.code]

/-! ### The opcode table's numbering -/

/-- The `n` bytes of `w`, least significant first. -/
def wordBytes : Nat → Nat → List Nat
  | 0, _ => []
  | n + 1, w => w % 256 :: wordBytes n (w / 256)

/-- The items of an event whose first `nbits` bits are `w`, and zeros after them: enough for three fields and for a
payload, whose length is byte 3 of the events that carry one. -/
def tableItems (nbits w : Nat) : List Nat := wordBytes (nbits / 8) w ++ List.replicate (3 + w / 2 ^ 24 % 256) 0

/-- The instruction the decoder reads from a table word. -/
def decodeTableWord (nbits w : Nat) : Option Instr :=
  match decodePrefix (tableItems nbits w) with
  | .ok (i, _) => some i
  | .error _ => none

end Sys2Proof
end

