-- ==== Sys2Proof/Machine/State.lean ====
section
/-! DEFINITION. The block's state (spec/10_state.md R20 to R35, R40), what stands around it, and the reasons a
step can stop. -/

namespace Sys2Proof.Machine

/-- The engine state (R21). -/
inductive Engine where
  | idle
  | txApp
  | txAck
  | deliver
  | fault
  deriving DecidableEq, Repr

/-- `fault_reason` (R26). -/
inductive FaultReason where
  | ownAddrUnset
  | noHandler
  deriving DecidableEq, Repr

/-- A pending delivery (R35). -/
structure Delivery where
  src : Byte
  cmd : Byte
  payload : List Byte
  deriving DecidableEq, Repr

/-- An output event (30_encoding R81). -/
inductive Output where
  | drive (d : Bool)
  | sendByte (b : Byte)
  | deliver (src cmd : Byte) (payload : List Byte)
  | txResult (r : TxResult)
  deriving DecidableEq, Repr

/-- What has been written to a buffer since reset: index and byte, the indices strictly rising. Every other index holds
a free value (R30, R32: "any value"), which `Memory.byteAt` in Machine/Ops.lean reads: log 7. -/
abbrev Memory := List Host.Cell

/-- The canonical form: indices strictly rising, one entry for each index written since reset. (What an unlisted index
reads as is free, so no entry can be told to equal it: log 7.) -/
abbrev Memory.wf (m : Memory) : Prop := m.Pairwise fun x y => x.1 < y.1

/-- Why a step stops with a fault. The block itself stops only by entering the engine state `fault`
(60_exceptions R220), which is a next state (log 6); these stand for what no rule of the spec produces. -/
inductive Fault where
  /-- Raised by `bufRead` and `bufWrite` for an index at or above the buffer's capacity, as 20_memory R52 asks. Safe: log 8. -/
  | indexOutOfRange (index : Nat)
  /-- Raised by `enterDeliver` when there is no delivery to offer, against 10_state R36. Safe: log 16. -/
  | noPendingDelivery
  deriving DecidableEq, Repr

/-- Why something has no meaning. -/
inductive Refusal where
  /-- Raised by `exec` for a row not modelled yet. Safe. -/
  | notModelled (mnemonic : String)
  /-- Raised by `step` for a presented record that is no input event (30_encoding R85). Safe. -/
  | notAnEvent (why : Reject)
  /-- Raised by a byte, frame or internal row outside the condition that selects it (the table's
  "condition"). Safe: log 14. -/
  | notSelected (mnemonic : String)
  deriving DecidableEq, Repr

/-- The state: R20's twelve elements, and four fields of the model's own. -/
structure State where
  /-- The parameters the model takes as an argument (00_scope R9); configuration, which no step writes. Log 1. -/
  params : Params
  /-- The event records the agents have presented and the block has not taken (R14 `hold`, 20_memory R63). Log 3. -/
  pending : List Record
  /-- The output events of the latest step, in emission order (R7, R14 `emit`). Log 4. -/
  out : List Output
  /-- How many `RESET`s the block has taken: what the free contents of the buffers are applied to. Log 7. -/
  resets : Nat
  /-- R21. -/
  eng : Engine
  /-- R26. -/
  faultReason : FaultReason
  /-- R24. -/
  ownAddr : Byte
  /-- R24. -/
  ownSet : Bool
  /-- R25. -/
  handlerSet : Bool
  /-- R27: true is drive, false is listen. -/
  drive : Bool
  /-- R30. -/
  rxBuf : Memory
  /-- R31. -/
  rxLen : Nat
  /-- R32. -/
  txBuf : Memory
  /-- R33. -/
  txLen : Nat
  /-- R34. -/
  txIdx : Nat
  /-- R35. -/
  dlv : Option Delivery
  deriving DecidableEq, Repr

/-- The machine right after reset (R40). `own_addr` and `fault_reason` have no reset value in the spec: DESIGN
CHOICE, unsafe, log 9 and log 10. Nothing has been written to the buffers, so every byte of them is a free value; that the
count of resets is 0 is a DESIGN CHOICE, safe, log 7. The parameters are open (log 1), and no agent has presented anything
(log 12). -/
def State.reset : State where
  params := Config.params
  pending := []
  out := []
  resets := 0
  eng := .idle
  faultReason := .ownAddrUnset
  ownAddr := 0x00
  ownSet := false
  handlerSet := false
  drive := false
  rxBuf := []
  rxLen := 0
  txBuf := []
  txLen := 0
  txIdx := 0
  dlv := none

end Sys2Proof.Machine
end

