-- ==== Sys2Proof/Machine/Flags.lean ====
section
/-! DEFINITION. The block has no condition codes (spec/10_state.md R29). Its 1-bit status elements, and what sets them. -/

namespace Sys2Proof.Machine

/-- `emit E(args)` (00_scope R14): append to the step's output list. -/
def emit (o : Output) (s : State) : State := { s with out := s.out ++ [o] }

/-- `drive <- d; emit DRIVE(d)`: every change of `drive` emits (R27). -/
def setDrive (d : Bool) (s : State) : State := emit (.drive d) { s with drive := d }

/-- `own_addr <- a; own_set <- 1` (R24, R182). -/
def setOwnAddr (a : Byte) (s : State) : State := { s with ownAddr := a, ownSet := true }

/-- `handler_set <- 1` (R25, R183). -/
def setHandlerFlag (s : State) : State := { s with handlerSet := true }

end Sys2Proof.Machine
end

