-- ==== Sys2Proof/Machine/Ops.lean ====
section
/-! DEFINITION. The operations the meanings share: buffer access (spec/20_memory.md R52), the fault entry
(spec/60_exceptions.md R220), `encode` into `tx_buf` (spec/41_codec.md R110 to R113), `start_tx` and `enter_deliver`
(spec/43_transmit_arbiter.md R185, R179), hold and drop (R170), and reset (spec/70_reset_and_hazards.md R240). -/

namespace Sys2Proof.Machine

/-- What a step of the block answers. -/
abbrev Result := Host.Outcome State Fault Refusal

/-! ### Buffers -/

/-- The byte written at an index, if one has been since reset. -/
def Memory.read : Memory → Nat → Option Byte
  | [], _ => none
  | (b, v) :: rest, a => if a = b then some v else Memory.read rest a

/-- Write one byte, keeping the indices in order. -/
def Memory.write : Memory → Nat → Byte → Memory
  | [], a, v => [(a, v)]
  | (b, w) :: rest, a, v =>
    if a < b then (a, v) :: (b, w) :: rest
    else if a = b then (a, v) :: rest
    else (b, w) :: Memory.write rest a v

/-- The byte an index holds (R52): the one last written since reset, else the unspecified value `free` gives (log 7). -/
def Memory.byteAt (free : Nat → Byte) (m : Memory) (i : Nat) : Byte := (m.read i).getD (free i)

/-- `rx_buf[i]`. -/
def State.rxAt (s : State) (i : Nat) : Byte := s.rxBuf.byteAt (Config.rxFree s.resets) i

/-- `tx_buf[i]`. -/
def State.txAt (s : State) (i : Nat) : Byte := s.txBuf.byteAt (Config.txFree s.resets) i

/-- `BufRead(buf, i)` (R52), for a buffer of capacity `cap`. -/
def bufRead (cap : Nat) (free : Nat → Byte) (m : Memory) (i : Nat) : Except Fault Byte :=
  if i < cap then .ok (m.byteAt free i) else .error (.indexOutOfRange i)

/-- `BufWrite(buf, i, v)` (R52), for a buffer of capacity `cap`. -/
def bufWrite (cap : Nat) (m : Memory) (i : Nat) (v : Byte) : Except Fault Memory :=
  if i < cap then .ok (m.write i v) else .error (.indexOutOfRange i)

/-- `BufRead` of `n` bytes from index `i` on. -/
def bufReadMany (cap : Nat) (free : Nat → Byte) (m : Memory) : Nat → Nat → Except Fault (List Byte)
  | _, 0 => .ok []
  | i, n + 1 =>
    match bufRead cap free m i with
    | .error f => .error f
    | .ok b =>
      match bufReadMany cap free m (i + 1) n with
      | .error f => .error f
      | .ok bs => .ok (b :: bs)

/-- `BufWrite` of a byte list from index `i` on, in index order. -/
def bufWriteMany (cap : Nat) : Memory → Nat → List Byte → Except Fault Memory
  | m, _, [] => .ok m
  | m, i, b :: bs =>
    match bufWrite cap m i b with
    | .error f => .error f
    | .ok m' => bufWriteMany cap m' (i + 1) bs

/-- The candidate frame `[MARKER] ++ rx_buf[0 .. rx_len-1]` (30_encoding R72). -/
def candidate (s : State) : Except Fault (List Byte) :=
  match bufReadMany s.params.accCap (Config.rxFree s.resets) s.rxBuf 0 s.rxLen with
  | .error f => .error f
  | .ok acc => .ok (s.params.marker :: acc)

/-! ### Hold, drop, fault -/

/-- `hold` (00_scope R14): nothing changes; `step` leaves the event pending. -/
def hold (s : State) : Result := .next s

/-- `drop` (00_scope R14): the event is taken and has no effect. -/
def drop (s : State) : Result := .next s

/-- The cells of the transition table (R170) that say "hold". A byte, frame, internal or output row is not
presented by an agent; the two byte rows are held as `RX_BYTE` is. -/
def held : Instr → Engine → Bool
  | .rxByteTerminator, e => decide (e = .deliver ∨ e = .fault)
  | .rxByteData _, e => decide (e = .deliver ∨ e = .fault)
  | .frameAck _, _ => false
  | .frameNoack _, _ => false
  | .frameAddressed _, _ => false
  | .transmitAck _, _ => false
  | .reset, _ => false
  | .rxByte _, e => decide (e = .deliver ∨ e = .fault)
  | .txDone, e => decide (e = .fault)
  | .configure _, e => decide (e = .fault)
  | .setHandler, e => decide (e = .fault)
  | .transmit _ _ _, e => decide (e ≠ .idle)
  | .transmitError _ _, e => decide (e ≠ .idle)
  | .deliverAccept, e => decide (e = .fault)
  | .drive _, _ => false
  | .sendByte _, _ => false
  | .deliver _ _ _, _ => false
  | .txResult _, _ => false

/-- The number of a fault reason (30_encoding R82). -/
def FaultReason.code : FaultReason → Nat
  | .ownAddrUnset => 1
  | .noHandler => 2

/-- `raise Fault(reason)` (R220): the one entry to `FAULT`. Outputs already emitted stand, and `drive` keeps its
value. There is no return but `RESET` (R221, R225). -/
def raise (reason : FaultReason) (s : State) : State := { s with faultReason := reason, eng := .fault }

/-- `read_own_addr()` (R113): no value while `own_set` is 0, when the caller raises `OWN_ADDR_UNSET`. -/
def readOwnAddr (s : State) : Option Byte := if s.ownSet then some s.ownAddr else none

/-! ### Encode and start -/

/-- What `encode` answers (R110, R113), or a buffer fault (R52). -/
inductive EncodeResult where
  | ok (s : State)
  | payloadTooLarge
  | ownAddrUnset
  | bufferFault (f : Fault)
  deriving DecidableEq, Repr

/-- `encode` after its size check (R112): the own address is read, the wire frame (R71) written from index 0,
and `tx_len` set. -/
def encodeFitting (dst cmd : Byte) (payload : List Byte) (s : State) : EncodeResult :=
  match readOwnAddr s with
  | none => .ownAddrUnset
  | some src =>
    match bufWriteMany s.params.bufCap s.txBuf 0 (wireFrame s.params src dst cmd payload) with
    | .error f => .bufferFault f
    | .ok m => .ok { s with txBuf := m, txLen := payload.length + 7 }

/-- `encode` (R111, R112). -/
def encodeFrame (dst cmd : Byte) (payload : List Byte) (s : State) : EncodeResult :=
  if s.params.bufCap ≤ fixedOverhead + payload.length then .payloadTooLarge
  else encodeFitting dst cmd payload s

/-- `start_tx(S)` (R185). -/
def startTx (mode : Engine) (s : State) : Result :=
  match bufRead s.params.bufCap (Config.txFree s.resets) s.txBuf 0 with
  | .error f => .fault f
  | .ok b => .next { emit (.sendByte b) (setDrive true s) with txIdx := 1, eng := mode }

/-- What follows an `encode` made in state `s`: the frame starts (R172, R175), the request is answered
(R171), or the fault is entered (R220). -/
def startEncoded (mode : Engine) (s : State) : EncodeResult → Result
  | .ok s' => startTx mode s'
  | .payloadTooLarge => .next (emit (.txResult .payloadTooLarge) s)
  | .ownAddrUnset => .next (raise .ownAddrUnset s)
  | .bufferFault f => .fault f

/-- A transmit request of the application, in every engine state (R171 to R173). -/
def transmitRequest (dst cmd : Byte) (payload : List Byte) (s : State) : Result :=
  match s.eng with
  | .idle => startEncoded .txApp s (encodeFrame dst cmd payload s)
  | .txApp => hold s
  | .txAck => hold s
  | .deliver => hold s
  | .fault => hold s

/-- `transmit_ack(d)` (R175). `encode` of an empty payload always passes its size check, because `BUF_CAP` is at least 7. -/
def transmitAck (d : Byte) (s : State) : Result :=
  startEncoded .txAck s (encodeFitting d s.params.ackCode [] s)

/-- The first branch of R176 and R177: send `tx_buf[tx_idx]`. -/
def sendNext (s : State) : Result :=
  match bufRead s.params.bufCap (Config.txFree s.resets) s.txBuf s.txIdx with
  | .error f => .fault f
  | .ok b => .next { emit (.sendByte b) s with txIdx := s.txIdx + 1 }

/-! ### Delivery -/

/-- `enter_deliver()` (R179). -/
def enterDeliver (s : State) : Result :=
  if s.handlerSet then
    match s.dlv with
    | some d => .next { emit (.deliver d.src d.cmd d.payload) s with eng := .deliver }
    | none => .fault .noPendingDelivery
  else .next (raise .noHandler s)

/-- `dlv <- (src, cmd, payload)` (R149, R150). -/
def capture (f : Frame) (s : State) : State := { s with dlv := some ⟨f.src, f.cmd, f.payload⟩ }

/-! ### Reset -/

/-- R240's assignments: every element to its value in R40, `fault_reason` kept, the buffers to fresh free contents
(log 7). What stands around the block (parameters, pending events, outputs) is not the block's. -/
def resetElements (s : State) : State :=
  { State.reset with
    params := s.params, pending := s.pending, out := s.out, resets := s.resets + 1, faultReason := s.faultReason }

end Sys2Proof.Machine
end

