-- ==== Sys2Proof/Machine/Control.lean ====
section
/-! DEFINITION. `DELIVER_ACCEPT`, `CONFIGURE`, `SET_HANDLER` (spec/43_transmit_arbiter.md R180 to R184) and `RESET`
(spec/70_reset_and_hazards.md R240). -/

namespace Sys2Proof.Machine

/-- `DELIVER_ACCEPT` (R180, R181). -/
def execDeliverAccept (s : State) : Result :=
  match s.eng with
  | .idle => drop s
  | .txApp => drop s
  | .txAck => drop s
  | .deliver => .next { s with dlv := none, eng := .idle }
  | .fault => hold s

/-- `CONFIGURE` (R182, R184). -/
def execConfigure (a : Byte) (s : State) : Result :=
  match s.eng with
  | .idle => .next (setOwnAddr a s)
  | .txApp => .next (setOwnAddr a s)
  | .txAck => .next (setOwnAddr a s)
  | .deliver => .next (setOwnAddr a s)
  | .fault => hold s

/-- `SET_HANDLER` (R183, R184). -/
def execSetHandler (s : State) : Result :=
  match s.eng with
  | .idle => .next (setHandlerFlag s)
  | .txApp => .next (setHandlerFlag s)
  | .txAck => .next (setHandlerFlag s)
  | .deliver => .next (setHandlerFlag s)
  | .fault => hold s

/-- `RESET` (R240): accepted in every state. -/
def execReset (s : State) : Result :=
  .next (resetElements (if s.drive then emit (.drive false) s else s))

end Sys2Proof.Machine
end

