-- ==== Sys2Proof/Machine/Outputs.lean ====
section
/-! DEFINITION. The output rows (spec/30_encoding.md R81): the meaning of each is its emission (spec/00_scope.md R14). What
changes with an output (the level of the line, the engine state) belongs to the operation that emits it. -/

namespace Sys2Proof.Machine

/-- `DRIVE`. -/
def execDrive (d : Bool) (s : State) : Result := .next (emit (.drive d) s)

/-- `SEND_BYTE`. -/
def execSendByte (b : Byte) (s : State) : Result := .next (emit (.sendByte b) s)

/-- `DELIVER`. -/
def execDeliver (src cmd : Byte) (payload : List Byte) (s : State) : Result :=
  .next (emit (.deliver src cmd payload) s)

/-- `TX_RESULT`. -/
def execTxResult (r : TxResult) (s : State) : Result := .next (emit (.txResult r) s)

end Sys2Proof.Machine
end

