-- ==== Sys2Proof/Machine/Receive.lean ====
section
/-! DEFINITION. The framing state machine: `RX_BYTE` and the byte and frame rows it selects (spec/42_reassembler.md). -/

namespace Sys2Proof.Machine

/-- What is decided about a candidate frame. -/
inductive Verdict where
  | silent (o : RxOutcome)
  | ownAddrUnset
  | ack (f : Frame)
  | noack (f : Frame)
  | addressed (f : Frame)
  deriving DecidableEq, Repr

/-- The tests on a candidate, in the order of 60_exceptions R218. `own` is what `read_own_addr()` gives. -/
def judge (p : Params) (own : Option Byte) (F : List Byte) : Verdict :=
  match decodeFrame F with
  | .error .truncated => .silent .truncated
  | .error .checksumMismatch => .silent .checksumMismatch
  | .ok f =>
    match own with
    | none => .ownAddrUnset
    | some a =>
      if f.dst = a then
        match cmdClass p f.cmd with
        | .ack => .ack f
        | .noack => .noack f
        | .addressed => .addressed f
      else .silent .wrongDestination

/-- The receive outcome a verdict stands for (R82, R217); an unset own address has none. -/
def Verdict.outcome : Verdict → Option RxOutcome
  | .silent o => some o
  | .ownAddrUnset => none
  | .ack _ => some .ackDiscarded
  | .noack _ => some .deliverNoack
  | .addressed _ => some .deliverAck

/-- The condition that selects a frame row (30_encoding R75 and the table): the reassembler is at work, and the
frame decoded, is addressed to this node and is of the row's class. -/
def frameSelected (c : CmdClass) (f : Frame) (s : State) : Bool :=
  decide (s.eng = .idle ∧ s.ownSet = true ∧ f.dst = s.ownAddr ∧ cmdClass s.params f.cmd = c)

/-- `FRAME.ack` (R148): discarded, and nothing records it. -/
def execFrameAck (f : Frame) (s : State) : Result :=
  if frameSelected .ack f s then .next s else .refused (.notSelected "FRAME.ack")

/-- `FRAME.noack` (R149). -/
def execFrameNoack (f : Frame) (s : State) : Result :=
  if frameSelected .noack f s then enterDeliver (capture f s) else .refused (.notSelected "FRAME.noack")

/-- `FRAME.addressed` (R150). -/
def execFrameAddressed (f : Frame) (s : State) : Result :=
  if frameSelected .addressed f s then transmitAck f.src (capture f s)
  else .refused (.notSelected "FRAME.addressed")

/-- What a verdict has the reassembler do, the cursor already reset (R145). -/
def dispatch (s : State) : Verdict → Result
  | .silent _ => .next s
  | .ownAddrUnset => .next (raise .ownAddrUnset s)
  | .ack f => execFrameAck f s
  | .noack f => execFrameNoack f s
  | .addressed f => execFrameAddressed f s

/-- A frame boundary in `IDLE` (R144, R145, R151). -/
def frameBoundary (s : State) : Result :=
  match candidate s with
  | .error f => .fault f
  | .ok F => dispatch { s with rxLen := 0 } (judge s.params (readOwnAddr s) F)

/-- A data byte in `IDLE`: append (R141), or overflow (R143). -/
def accumulate (b : Byte) (s : State) : Result :=
  if s.rxLen = s.params.accCap then .next { s with rxLen := 0 }
  else
    match bufWrite s.params.accCap s.rxBuf s.rxLen b with
    | .error f => .fault f
    | .ok m => .next { s with rxBuf := m, rxLen := s.rxLen + 1 }

/-- The outcome by which a byte taken in `IDLE` is classified (R82, 60_exceptions R211 to R217); no port shows it. A byte
that is merely stored has none, nor has one that enters `FAULT`. -/
def rxOutcome (b : Byte) (s : State) : Option RxOutcome :=
  if b = s.params.marker then
    match candidate s with
    | .error _ => none
    | .ok F => (judge s.params (readOwnAddr s) F).outcome
  else if s.rxLen = s.params.accCap then some .bufferOverflow
  else none

/-- `RX_BYTE.terminator` (R144, R152 to R154). -/
def execRxByteTerminator (s : State) : Result :=
  match s.eng with
  | .idle => frameBoundary s
  | .txApp => drop s
  | .txAck => drop s
  | .deliver => hold s
  | .fault => hold s

/-- `RX_BYTE.data` (R141, R143, R152 to R154). The row is selected by a byte other than `MARKER` only (R74). -/
def execRxByteData (b : Byte) (s : State) : Result :=
  if b = s.params.marker then .refused (.notSelected "RX_BYTE.data")
  else
    match s.eng with
    | .idle => accumulate b s
    | .txApp => drop s
    | .txAck => drop s
    | .deliver => hold s
    | .fault => hold s

/-- `RX_BYTE` (R140): the byte's class selects the row (R74). -/
def execRxByte (b : Byte) (s : State) : Result :=
  if b = s.params.marker then execRxByteTerminator s else execRxByteData b s

end Sys2Proof.Machine
end

