-- ==== Sys2Proof/Machine/Transmit.lean ====
section
/-! DEFINITION. The transmit driver: `TRANSMIT`, `TRANSMIT_ERROR`, `TRANSMIT_ACK`, `TX_DONE` (spec/43_transmit_arbiter.md
R171 to R178). -/

namespace Sys2Proof.Machine

/-- `TRANSMIT` (R171 to R173). -/
def execTransmit (dst cmd : Byte) (payload : List Byte) (s : State) : Result := transmitRequest dst cmd payload s

/-- `TRANSMIT_ERROR` (R174): exactly `TRANSMIT(dst, code, [])`. -/
def execTransmitError (dst code : Byte) (s : State) : Result := transmitRequest dst code [] s

/-- `TRANSMIT_ACK` (R175): selected by `FRAME.addressed` only, in `IDLE`, with the delivery captured (R150). -/
def execTransmitAck (d : Byte) (s : State) : Result :=
  if s.eng = .idle ∧ s.dlv.isSome then transmitAck d s else .refused (.notSelected "TRANSMIT_ACK")

/-- `TX_DONE` (R176 to R178). -/
def execTxDone (s : State) : Result :=
  match s.eng with
  | .idle => drop s
  | .txApp =>
    if s.txIdx < s.txLen then sendNext s
    else .next { emit (.txResult .ok) (setDrive false s) with eng := .idle }
  | .txAck => if s.txIdx < s.txLen then sendNext s else enterDeliver (setDrive false s)
  | .deliver => drop s
  | .fault => hold s

end Sys2Proof.Machine
end

