-- ==== Sys2Proof/Machine/Dispatch.lean ====
section
/-! DEFINITION. The meaning of each row of the opcode table. -/

namespace Sys2Proof.Machine

def exec (i : Instr) (s : State) : Host.Outcome State Fault Refusal :=
  match i with
  | .rxByteTerminator => Sys2Proof.Machine.execRxByteTerminator s
  | .rxByteData b => Sys2Proof.Machine.execRxByteData b s
  | .frameAck f => Sys2Proof.Machine.execFrameAck f s
  | .frameNoack f => Sys2Proof.Machine.execFrameNoack f s
  | .frameAddressed f => Sys2Proof.Machine.execFrameAddressed f s
  | .transmitAck d => Sys2Proof.Machine.execTransmitAck d s
  | .reset => Sys2Proof.Machine.execReset s
  | .rxByte b => Sys2Proof.Machine.execRxByte b s
  | .txDone => Sys2Proof.Machine.execTxDone s
  | .configure a => Sys2Proof.Machine.execConfigure a s
  | .setHandler => Sys2Proof.Machine.execSetHandler s
  | .transmit dst cmd payload => Sys2Proof.Machine.execTransmit dst cmd payload s
  | .transmitError dst code => Sys2Proof.Machine.execTransmitError dst code s
  | .deliverAccept => Sys2Proof.Machine.execDeliverAccept s
  | .drive d => Sys2Proof.Machine.execDrive d s
  | .sendByte b => Sys2Proof.Machine.execSendByte b s
  | .deliver src cmd payload => Sys2Proof.Machine.execDeliver src cmd payload s
  | .txResult r => Sys2Proof.Machine.execTxResult r s

end Sys2Proof.Machine
end

