-- ==== Sys2Proof/Machine/Fetch.lean ====
section
/-! DEFINITION. Which presented event a step takes (spec/00_scope.md R7, R15; spec/20_memory.md R63), and how one is placed. -/

namespace Sys2Proof.Machine

/-- What a step finds among the presented records. -/
inductive Fetch where
  /-- Nothing, or held events only: the block waits (60_exceptions R231). -/
  | waits
  /-- A record that is no input event (30_encoding R85). -/
  | reject (why : Reject)
  /-- The event taken, and the records that stay pending. -/
  | take (i : Instr) (rest : List Record)
  deriving DecidableEq, Repr

/-- The first presented record that the engine state does not hold. A held record stays where it is (R14), so
two events of one agent that are held alike are taken in the order they were presented. -/
def fetch (e : Engine) : List Record → Fetch
  | [] => .waits
  | r :: rs =>
    match decodeInput r with
    | .error why => .reject why
    | .ok i =>
      if held i e then
        match fetch e rs with
        | .waits => .waits
        | .reject why => .reject why
        | .take j rest => .take j (r :: rest)
      else .take i rs

/-- A step begins with an empty output list (R7). -/
def beginStep (s : State) : State := { s with out := [] }

/-- One more record presented, before the others. -/
def present (r : Record) (s : State) : State := { s with pending := r :: s.pending }

/-- The record of an opcode-table word: the items its event takes (all of them if it is none). -/
def tableRecord (nbits w : Nat) : Record :=
  match decodePrefix (tableItems nbits w) with
  | .ok (_, rest) => (tableItems nbits w).take ((tableItems nbits w).length - rest.length)
  | .error _ => tableItems nbits w

end Sys2Proof.Machine
end

