-- ==== Sys2Proof/Machine/Step.lean ====
section
/-! DEFINITION. One step (spec/00_scope.md R7, R15). -/

namespace Sys2Proof.Machine

/-- Take one event, or wait. -/
def step (s : State) : Host.Outcome State Fault Refusal :=
  match fetch s.eng s.pending with
  | .waits => .next (beginStep s)
  | .reject why => .refused (.notAnEvent why)
  | .take i rest => exec i { beginStep s with pending := rest }

/-- `s` with the event of an opcode-table word presented first (log 12). -/
def State.withFetchWord (s : State) (nbits w : Nat) : State := present (tableRecord nbits w) s

end Sys2Proof.Machine
end

