-- ==== Sys2Proof/Safety.lean ====
section
/-! DEFINITION. What counts as a safe run: the block's invariants (spec/10_state.md R36), the state a claim fails in
(spec/60_exceptions.md R221), the end of a run (spec/70_reset_and_hazards.md R261), and the words statements use. -/

namespace Sys2Proof.Machine

/-- The engine states in which a byte is outstanding at the PHY (R21, R34). -/
abbrev Transmitting (e : Engine) : Prop := e = .txApp ∨ e = .txAck

/-- The seven invariants of R36, in its order. -/
structure BlockInv (s : State) : Prop where
  drive_iff : s.drive = true ↔ Transmitting s.eng
  tx_bounds : Transmitting s.eng → 7 ≤ s.txLen ∧ s.txLen ≤ s.params.bufCap ∧ 1 ≤ s.txIdx ∧ s.txIdx ≤ s.txLen
  ack_frame : s.eng = .txAck → s.txLen = 7 ∧ s.dlv.isSome = true
  offered : s.eng = .deliver → s.dlv.isSome = true ∧ s.handlerSet = true
  none_due : s.eng = .idle ∨ s.eng = .txApp → s.dlv = none
  rx_bound : s.rxLen ≤ s.params.accCap
  own_known : s.eng ≠ .idle → s.eng ≠ .fault → s.ownSet = true

/-- A buffer's contents: in canonical form, and inside its capacity (20_memory R51, R52). -/
abbrev Memory.okFor (cap : Nat) (m : Memory) : Prop := m.wf ∧ ∀ c ∈ m, c.1 < cap

/-- Every index below `n` has been written (10_state R30, R32: only those bytes are meaningful). -/
abbrev Memory.writtenTo (n : Nat) (m : Memory) : Prop := ∀ i < n, (m.read i).isSome = true

/-- What the rules keep of the two buffers (20_memory R51 to R53). -/
structure BufferInv (s : State) : Prop where
  rx_ok : s.rxBuf.okFor s.params.accCap
  tx_ok : s.txBuf.okFor s.params.bufCap
  rx_written : s.rxBuf.writtenTo s.rxLen
  tx_written : Transmitting s.eng → s.txBuf.writtenTo s.txLen

/-- The invariant of the machine. -/
structure Inv (s : State) : Prop where
  block : BlockInv s
  buffers : BufferInv s

/-- The accumulator is exactly these bytes (R30). -/
structure AccumulatorIs (s : State) (acc : List Byte) : Prop where
  len : s.rxLen = acc.length
  fits : acc.length ≤ s.params.accCap
  bytes : ∀ i < acc.length, acc[i]? = some (s.rxAt i)

/-- The wire frame of 30_encoding R71 stands in a buffer from index 0, field by field. -/
structure WireFrameAt (m : Memory) (p : Params) (src dst cmd : Byte) (payload : List Byte) : Prop where
  at_start : m.read 0 = some p.marker
  at_dst : m.read 1 = some dst
  at_src : m.read 2 = some src
  at_version : m.read 3 = some 0x01
  at_cmd : m.read 4 = some cmd
  at_payload : ∀ i < payload.length, m.read (5 + i) = payload[i]?
  at_checksum : m.read (5 + payload.length) =
    some (low8 (p.marker.toNat + dst.toNat + src.toNat + 1 + cmd.toNat + (payload.map BitVec.toNat).sum))
  at_end : m.read (6 + payload.length) = some p.marker

/-- Events taken one after another, with no wait between them; outputs gather in emission order (R59). -/
def execAll : List Instr → State → Result
  | [], s => .next s
  | i :: is, s =>
    match exec i s with
    | .next t => execAll is t
    | .fault f => .fault f
    | .refused r => .refused r

/-- A reached `FAULT` is a failure of every claim (R221). -/
abbrev Failed (s : State) : Prop := s.eng = .fault

/-- The event the next step takes. -/
def taken (s : State) : Option Instr :=
  match fetch s.eng s.pending with
  | .take i _ => some i
  | _ => none

/-- The two transmit requests of the application (43 R191). -/
def isRequest : Instr → Bool
  | .rxByteTerminator => false
  | .rxByteData _ => false
  | .frameAck _ => false
  | .frameNoack _ => false
  | .frameAddressed _ => false
  | .transmitAck _ => false
  | .reset => false
  | .rxByte _ => false
  | .txDone => false
  | .configure _ => false
  | .setHandler => false
  | .transmit _ _ _ => true
  | .transmitError _ _ => true
  | .deliverAccept => false
  | .drive _ => false
  | .sendByte _ => false
  | .deliver _ _ _ => false
  | .txResult _ => false

/-- An output that answers a request (R191). -/
def Output.isResult : Output → Bool
  | .drive _ => false
  | .sendByte _ => false
  | .deliver _ _ _ => false
  | .txResult _ => true

/-- An output that hands a byte to the PHY. -/
def Output.isSend : Output → Bool
  | .drive _ => false
  | .sendByte _ => true
  | .deliver _ _ _ => false
  | .txResult _ => false

/-- An event an agent can present (30_encoding R80). -/
def isInput : Instr → Bool
  | .rxByteTerminator => false
  | .rxByteData _ => false
  | .frameAck _ => false
  | .frameNoack _ => false
  | .frameAddressed _ => false
  | .transmitAck _ => false
  | .reset => true
  | .rxByte _ => true
  | .txDone => true
  | .configure _ => true
  | .setHandler => true
  | .transmit _ _ _ => true
  | .transmitError _ _ => true
  | .deliverAccept => true
  | .drive _ => false
  | .sendByte _ => false
  | .deliver _ _ _ => false
  | .txResult _ => false

/-- A received byte (30_encoding R74): the event, or one of its two rows. -/
def isReceive : Instr → Bool
  | .rxByteTerminator => true
  | .rxByteData _ => true
  | .frameAck _ => false
  | .frameNoack _ => false
  | .frameAddressed _ => false
  | .transmitAck _ => false
  | .reset => false
  | .rxByte _ => true
  | .txDone => false
  | .configure _ => false
  | .setHandler => false
  | .transmit _ _ _ => false
  | .transmitError _ _ => false
  | .deliverAccept => false
  | .drive _ => false
  | .sendByte _ => false
  | .deliver _ _ _ => false
  | .txResult _ => false

/-- What writes the transmit buffer or its cursor: the requests, their byte completions, and the auto-ACK a
terminator starts (43 R172, R175, R176, R177; 42 R150). -/
def isTransmitPath : Instr → Bool
  | .rxByteTerminator => true
  | .rxByteData _ => false
  | .frameAck _ => false
  | .frameNoack _ => false
  | .frameAddressed _ => true
  | .transmitAck _ => true
  | .reset => false
  | .rxByte _ => true
  | .txDone => true
  | .configure _ => false
  | .setHandler => false
  | .transmit _ _ _ => true
  | .transmitError _ _ => true
  | .deliverAccept => false
  | .drive _ => false
  | .sendByte _ => false
  | .deliver _ _ _ => false
  | .txResult _ => false

/-- Whether the next step accepts a transmit request. -/
def takesRequest (s : State) : Bool :=
  match taken s with
  | some i => isRequest i
  | none => false

/-- What is counted along `k` steps from `s`: requests accepted. -/
def requestsIn : Nat → State → Nat
  | 0, _ => 0
  | k + 1, s =>
    (takesRequest s).toNat +
      match step s with
      | .next t => requestsIn k t
      | _ => 0

/-- Results emitted along `k` steps from `s`. -/
def resultsIn : Nat → State → Nat
  | 0, _ => 0
  | k + 1, s =>
    match step s with
    | .next t => t.out.countP Output.isResult + resultsIn k t
    | _ => 0

/-- Whether one of `k` steps from `s` takes a `RESET`. -/
def resetIn : Nat → State → Bool
  | 0, _ => false
  | k + 1, s =>
    decide (taken s = some .reset) ||
      match step s with
      | .next t => resetIn k t
      | _ => false

/-- Whether, in `k` steps from `s`, a result comes out before a `RESET` is taken. Of a request accepted in the first of
them, or in progress at `s`, this says that it gets its result (43 R191): until then the block accepts no other, and a `RESET`
abandons it for good (70 R242). -/
def answered : Nat → State → Bool
  | 0, _ => false
  | k + 1, s =>
    match step s with
    | .next t => !decide (taken s = some .reset) && (t.out.any Output.isResult || answered k t)
    | _ => false

/-- Whether each request accepted in `k` steps from `s` gets its result in them. -/
def allAnswered : Nat → State → Bool
  | 0, _ => true
  | k + 1, s =>
    (!takesRequest s || answered (k + 1) s) &&
      match step s with
      | .next t => allAnswered k t
      | _ => true

/-- The end of a run of `k` steps (R261): idle, no event held, and every accepted request, each for itself, answered, the one
in progress at the start included; and no state of the run, first to last, was `FAULT` (R221, 92 D24: a run that reaches it is
never finished). DESIGN CHOICE, unsafe: "held" is read at the last state (00_scope R15), which in `IDLE` has a step for every
event, so one held earlier may still be pending: log 19. -/
def Finished (k : Nat) (s : State) : Prop :=
  (∀ j ≤ k, ∀ u, Host.Core.run Sys2Proof.core j s = .next u → ¬ Failed u) ∧
  ∃ t, Host.Core.run Sys2Proof.core k s = .next t ∧ t.eng = .idle ∧
    (∀ r ∈ t.pending, ∀ i, decodeInput r = .ok i → held i t.eng = false) ∧
    (s.eng = .txApp → answered k s = true) ∧ allAnswered k s = true

end Sys2Proof.Machine
end

