-- ==== Sys2Proof/Certificates/Slice0/Obligations.lean ====
section
/-! DEFINITION. The statements for the provers. -/

open Sys2Proof Sys2Proof.Machine

/-! ### Checksum (spec/40_checksum.md) -/

/-- R100: the checksum is the low eight bits of the integer sum, and the sum itself when it is at most 255. -/
def Obligations.ChecksumIsTheSumCutToEightBits : Prop :=
  ∀ bytes : List Byte,
    (compute bytes).toNat = (bytes.map BitVec.toNat).sum % 256 ∧
    ((bytes.map BitVec.toNat).sum ≤ 255 → (compute bytes).toNat = (bytes.map BitVec.toNat).sum)

/-- An inference the spec marks as its own (40_checksum R101): the checksum is an eight-bit running sum. -/
def Obligations.ChecksumIsARunningByteSum : Prop :=
  ∀ (bytes : List Byte) (x : Byte),
    compute (bytes ++ [x]) = compute bytes + x ∧ compute bytes = bytes.foldl (· + ·) 0

/-- R102: `verify` compares `compute` of the range with the claimed byte. -/
def Obligations.VerifyComparesTheChecksum : Prop :=
  ∀ (range : List Byte) (claimed : Byte),
    (verify range claimed = true ↔ compute range = claimed) ∧ (verify [] claimed = true ↔ claimed = 0x00)

/-- An inference the spec marks as its own (40_checksum R105 (a)): one changed byte, in the range or the claimed
byte itself, always makes `verify` false. -/
def Obligations.OneChangedByteIsDetected : Prop :=
  ∀ (before after : List Byte) (x y claimed other : Byte),
    verify (before ++ x :: after) claimed = true →
      (y ≠ x → verify (before ++ y :: after) claimed = false) ∧
      (other ≠ claimed → verify (before ++ x :: after) other = false)

/-- An inference the spec marks as its own (40_checksum R105 (b)): two changes that cancel go undetected. -/
def Obligations.CancellingChangesAreNotDetected : Prop :=
  ∀ (before between after : List Byte) (x y k claimed : Byte),
    verify (before ++ (x + k) :: (between ++ (y - k) :: after)) claimed =
      verify (before ++ x :: (between ++ y :: after)) claimed

/-! ### Codec (spec/41_codec.md) -/

/-- R118, R120: `decode` tests the length, then the checksum, and then returns the fields by position. -/
def Obligations.DecodeTestsLengthThenChecksumThenReadsFields : Prop :=
  ∀ F : List Byte,
    (F.length < 6 → decodeFrame F = .error .truncated) ∧
    (6 ≤ F.length → compute (F.take (F.length - 1)) ≠ F.getD (F.length - 1) 0 →
      decodeFrame F = .error .checksumMismatch) ∧
    (6 ≤ F.length → compute (F.take (F.length - 1)) = F.getD (F.length - 1) 0 →
      decodeFrame F = .ok ⟨F.getD 1 0, F.getD 2 0, F.getD 4 0, (F.drop 5).take (F.length - 6)⟩)

/-- R111: `encode` fails with `PAYLOAD_TOO_LARGE` exactly when `6 + N >= BUF_CAP`, and not exactly when
`N <= MAX_PAYLOAD = BUF_CAP - 7`, which is when the wire frame fits `tx_buf`; own address set or not. A failed `encode`
answers no state, so none changes. -/
def Obligations.EncodeFailsExactlyWhenTheFrameDoesNotFit : Prop :=
  ∀ (s : State) (dst cmd : Byte) (payload : List Byte),
    (encodeFrame dst cmd payload s = .payloadTooLarge ↔ s.params.bufCap ≤ 6 + payload.length) ∧
    (encodeFrame dst cmd payload s ≠ .payloadTooLarge ↔ payload.length ≤ s.params.maxPayload) ∧
    s.params.maxPayload = s.params.bufCap - 7 ∧
    (payload.length ≤ s.params.maxPayload ↔ (wireFrame s.params s.ownAddr dst cmd payload).length ≤ s.params.bufCap)

/-- R112, with the field offsets of R71: the three outcomes of `encode`. On success the wire frame stands in `tx_buf`,
every byte after it is as before, and of the registers only `tx_len` changes. -/
def Obligations.EncodeLaysOutTheWireFrame : Prop :=
  ∀ (s : State) (dst cmd : Byte) (payload : List Byte),
    (s.params.bufCap ≤ 6 + payload.length → encodeFrame dst cmd payload s = .payloadTooLarge) ∧
    (6 + payload.length < s.params.bufCap → s.ownSet = false → encodeFrame dst cmd payload s = .ownAddrUnset) ∧
    (6 + payload.length < s.params.bufCap → s.ownSet = true →
      ∃ m, encodeFrame dst cmd payload s = .ok { s with txBuf := m, txLen := payload.length + 7 } ∧
        WireFrameAt m s.params s.ownAddr dst cmd payload ∧
        ∀ a, payload.length + 7 ≤ a → m.read a = s.txBuf.read a)

/-- The round trip, an inference the spec marks as its own (41_codec R121, under 00_scope R11): the bytes of a wire frame up to its end marker, fed to a reassembler in `IDLE`
whose accumulator is too short to be a frame (whatever bytes it holds), leave the candidate `W[0 .. 5+N]`, and it decodes to what was encoded. -/
def Obligations.FedFrameDecodesToWhatWasEncoded : Prop :=
  ∀ (s : State) (src dst cmd : Byte) (payload : List Byte),
    s.eng = .idle → s.rxLen ≤ 4 →
    payload.length ≤ s.params.maxPayload →
    (∀ b ∈ (wireFrame s.params src dst cmd payload).tail.dropLast, b ≠ s.params.marker) →
    ∃ t, execAll ((wireFrame s.params src dst cmd payload).dropLast.map Instr.rxByte) s = .next t ∧
      t.eng = .idle ∧ t.out = s.out ∧ t.params = s.params ∧
      candidate t = .ok (wireFrame s.params src dst cmd payload).dropLast ∧
      decodeFrame (wireFrame s.params src dst cmd payload).dropLast = .ok ⟨dst, src, cmd, payload⟩

/-- An inference the spec marks as its own (42_reassembler R157): a frame whose checksum equals `MARKER`, fed to a
reassembler in `IDLE`, is cut before its checksum. With no payload the candidate is `TRUNCATED`; with one it decodes exactly
when twice the last payload byte is `MARKER`, and then one byte short. Where it does not decode, the checksum byte and the end
marker, both terminators, discard it and then the empty accumulator. -/
def Obligations.MarkerChecksumShortensTheFrame : Prop :=
  ∀ (s : State) (src dst cmd : Byte) (payload : List Byte),
    s.eng = .idle → s.rxLen ≤ 4 → payload.length ≤ s.params.maxPayload →
    compute (frameBody s.params src dst cmd payload) = s.params.marker →
    (∀ b ∈ (frameBody s.params src dst cmd payload).tail, b ≠ s.params.marker) →
    ∃ t, execAll ((frameBody s.params src dst cmd payload).map Instr.rxByte) s = .next t ∧
      t.eng = .idle ∧ t.out = s.out ∧ t.params = s.params ∧
      candidate t = .ok (frameBody s.params src dst cmd payload) ∧
      (payload = [] → rxOutcome s.params.marker t = some .truncated) ∧
      (∀ init last, payload = init ++ [last] →
        (last + last = s.params.marker →
          decodeFrame (frameBody s.params src dst cmd payload) = .ok ⟨dst, src, cmd, init⟩) ∧
        (last + last ≠ s.params.marker → rxOutcome s.params.marker t = some .checksumMismatch)) ∧
      ((∀ init last, payload = init ++ [last] → last + last ≠ s.params.marker) →
        execAll [.rxByte s.params.marker, .rxByte s.params.marker] t = .next { t with rxLen := 0 } ∧
        rxOutcome s.params.marker { t with rxLen := 0 } = some .truncated)

/-! ### Receiving (spec/42_reassembler.md) -/

/-- R141: a data byte in `IDLE` with room is stored at the cursor, and the cursor advances. Nothing else changes. -/
def Obligations.DataByteIsAppended : Prop :=
  ∀ (s : State) (b : Byte), s.eng = .idle → b ≠ s.params.marker → s.rxLen < s.params.accCap →
    ∃ m, exec (.rxByte b) s = .next { s with rxBuf := m, rxLen := s.rxLen + 1 } ∧
      exec (.rxByteData b) s = .next { s with rxBuf := m, rxLen := s.rxLen + 1 } ∧
      m.read s.rxLen = some b ∧ ∀ a, a ≠ s.rxLen → m.read a = s.rxBuf.read a

/-- The spec's own choice (42_reassembler R143, 92 D6 and D7): a data byte that finds the accumulator full empties it and
is not stored. -/
def Obligations.OverflowDiscardsThePartialFrame : Prop :=
  ∀ (s : State) (b : Byte), s.eng = .idle → b ≠ s.params.marker → s.rxLen = s.params.accCap →
    exec (.rxByte b) s = .next { s with rxLen := 0 } ∧ exec (.rxByteData b) s = .next { s with rxLen := 0 }

/-- R146: a candidate that does not decode is discarded; only the cursor changes. -/
def Obligations.UndecodableCandidateIsDiscarded : Prop :=
  ∀ (s : State) (acc : List Byte) (e : DecodeError), s.eng = .idle → AccumulatorIs s acc →
    decodeFrame (s.params.marker :: acc) = .error e →
    exec (.rxByte s.params.marker) s = .next { s with rxLen := 0 } ∧
    exec .rxByteTerminator s = .next { s with rxLen := 0 }

/-- The address check (42_reassembler R147; the fault is the spec's own choice, 92 D14): a frame for another node
is discarded whatever its command, and with no own address set the block enters `FAULT`. -/
def Obligations.AddressCheckDiscardsOrFaults : Prop :=
  ∀ (s : State) (acc : List Byte) (f : Frame), s.eng = .idle → AccumulatorIs s acc →
    decodeFrame (s.params.marker :: acc) = .ok f →
    (s.ownSet = true → f.dst ≠ s.ownAddr →
      exec (.rxByte s.params.marker) s = .next { s with rxLen := 0 } ∧
      exec .rxByteTerminator s = .next { s with rxLen := 0 }) ∧
    (s.ownSet = false →
      exec (.rxByte s.params.marker) s =
        .next { s with rxLen := 0, faultReason := .ownAddrUnset, eng := .fault } ∧
      exec .rxByteTerminator s = .next { s with rxLen := 0, faultReason := .ownAddrUnset, eng := .fault })

/-- R148: an ACK for this node is discarded, with no output, and the outcome is `ACK_DISCARDED`. -/
def Obligations.AckFrameIsDiscarded : Prop :=
  ∀ (s : State) (f : Frame), s.eng = .idle → s.ownSet = true → f.dst = s.ownAddr → f.cmd = s.params.ackCode →
    exec (.frameAck f) s = .next s ∧
    ∀ acc, AccumulatorIs s acc → decodeFrame (s.params.marker :: acc) = .ok f →
      rxOutcome s.params.marker s = some .ackDiscarded ∧
      exec (.rxByte s.params.marker) s = .next { s with rxLen := 0 } ∧
      exec .rxByteTerminator s = .next { s with rxLen := 0 }

/-- R149: a no-ACK frame for this node is offered at once with no ACK, or faults where no handler is set, and the
outcome is `DELIVER_NOACK`; for another node it is discarded. -/
def Obligations.NoackFrameIsDeliveredWithoutAck : Prop :=
  ∀ (s : State) (f : Frame), s.eng = .idle → s.ownSet = true → f.cmd ≠ s.params.ackCode →
    f.cmd = s.params.broadcastCode →
    (f.dst = s.ownAddr → s.handlerSet = true →
      exec (.frameNoack f) s = .next { s with
        dlv := some ⟨f.src, f.cmd, f.payload⟩, out := s.out ++ [.deliver f.src f.cmd f.payload], eng := .deliver } ∧
      ∀ acc, AccumulatorIs s acc → decodeFrame (s.params.marker :: acc) = .ok f →
        ∀ i ∈ [Instr.rxByte s.params.marker, .rxByteTerminator],
          exec i s = .next { s with
            rxLen := 0, dlv := some ⟨f.src, f.cmd, f.payload⟩,
            out := s.out ++ [.deliver f.src f.cmd f.payload], eng := .deliver }) ∧
    (f.dst = s.ownAddr → s.handlerSet = false →
      exec (.frameNoack f) s = .next { s with
        dlv := some ⟨f.src, f.cmd, f.payload⟩, faultReason := .noHandler, eng := .fault } ∧
      ∀ acc, AccumulatorIs s acc → decodeFrame (s.params.marker :: acc) = .ok f →
        ∀ i ∈ [Instr.rxByte s.params.marker, .rxByteTerminator],
          exec i s = .next { s with
            rxLen := 0, dlv := some ⟨f.src, f.cmd, f.payload⟩, faultReason := .noHandler, eng := .fault }) ∧
    (f.dst ≠ s.ownAddr →
      ∀ acc, AccumulatorIs s acc → decodeFrame (s.params.marker :: acc) = .ok f →
        ∀ i ∈ [Instr.rxByte s.params.marker, .rxByteTerminator], exec i s = .next { s with rxLen := 0 }) ∧
    (f.dst = s.ownAddr →
      ∀ acc, AccumulatorIs s acc → decodeFrame (s.params.marker :: acc) = .ok f →
        rxOutcome s.params.marker s = some .deliverNoack)

/-- R150: an addressed frame is captured, its ACK encoded and its first byte sent, in one step; nothing is
delivered yet. Every byte of `tx_buf` after the seven of the ACK is as before. -/
def Obligations.AddressedFrameStartsItsAck : Prop :=
  ∀ (s : State) (f : Frame), s.eng = .idle → s.ownSet = true → f.dst = s.ownAddr → f.cmd ≠ s.params.ackCode →
    f.cmd ≠ s.params.broadcastCode →
    ∃ m, WireFrameAt m s.params s.ownAddr f.src s.params.ackCode [] ∧
      (∀ a, 7 ≤ a → m.read a = s.txBuf.read a) ∧
      exec (.frameAddressed f) s = .next { s with
        dlv := some ⟨f.src, f.cmd, f.payload⟩, txBuf := m, txLen := 7, txIdx := 1, drive := true, eng := .txAck,
        out := s.out ++ [.drive true, .sendByte s.params.marker] } ∧
      ∀ acc, AccumulatorIs s acc → decodeFrame (s.params.marker :: acc) = .ok f →
        ∀ i ∈ [Instr.rxByte s.params.marker, .rxByteTerminator],
          exec i s = .next { s with
            rxLen := 0, dlv := some ⟨f.src, f.cmd, f.payload⟩, txBuf := m, txLen := 7, txIdx := 1, drive := true,
            eng := .txAck, out := s.out ++ [.drive true, .sendByte s.params.marker] }

/-- R218: the tests on a candidate, in their fixed order; the first that applies decides the outcome. -/
def Obligations.CandidateTestsRunInOrder : Prop :=
  ∀ (s : State) (acc : List Byte), s.eng = .idle → AccumulatorIs s acc →
    (acc.length < 5 → rxOutcome s.params.marker s = some .truncated) ∧
    (5 ≤ acc.length → compute (s.params.marker :: acc.dropLast) ≠ acc.getLastD 0 →
      rxOutcome s.params.marker s = some .checksumMismatch) ∧
    ∀ f, decodeFrame (s.params.marker :: acc) = .ok f →
      (s.ownSet = false → rxOutcome s.params.marker s = none ∧
        exec (.rxByte s.params.marker) s =
          .next { s with rxLen := 0, faultReason := .ownAddrUnset, eng := .fault }) ∧
      (s.ownSet = true → rxOutcome s.params.marker s =
        if f.dst ≠ s.ownAddr then some .wrongDestination
        else if f.cmd = s.params.ackCode then some .ackDiscarded
        else if f.cmd = s.params.broadcastCode then some .deliverNoack
        else some .deliverAck)

/-- R74's dispatch: the event runs the row of its byte's class, and each byte is of exactly one class. -/
def Obligations.ReceivedByteRunsItsClassRow : Prop :=
  ∀ (s : State) (b : Byte),
    (b = s.params.marker → decodeWireByte s.params b = .rxByteTerminator ∧ exec (.rxByte b) s = exec .rxByteTerminator s) ∧
    (b ≠ s.params.marker → decodeWireByte s.params b = .rxByteData b ∧ exec (.rxByte b) s = exec (.rxByteData b) s)

/-- The model's choice (log 14): a row outside the condition that selects it is refused by name. -/
def Obligations.RowsOutsideTheirConditionAreRefused : Prop :=
  ∀ (s : State) (f : Frame) (d : Byte),
    exec (.rxByteData s.params.marker) s = .refused (.notSelected "RX_BYTE.data") ∧
    (s.eng ≠ .idle ∨ s.ownSet = false ∨ f.dst ≠ s.ownAddr ∨ f.cmd ≠ s.params.ackCode →
      exec (.frameAck f) s = .refused (.notSelected "FRAME.ack")) ∧
    (s.eng ≠ .idle ∨ s.ownSet = false ∨ f.dst ≠ s.ownAddr ∨ f.cmd = s.params.ackCode ∨ f.cmd ≠ s.params.broadcastCode →
      exec (.frameNoack f) s = .refused (.notSelected "FRAME.noack")) ∧
    (s.eng ≠ .idle ∨ s.ownSet = false ∨ f.dst ≠ s.ownAddr ∨ f.cmd = s.params.ackCode ∨ f.cmd = s.params.broadcastCode →
      exec (.frameAddressed f) s = .refused (.notSelected "FRAME.addressed")) ∧
    (s.eng ≠ .idle ∨ s.dlv = none → exec (.transmitAck d) s = .refused (.notSelected "TRANSMIT_ACK"))

/-! ### Transmitting (spec/43_transmit_arbiter.md) -/

/-- The spec's own order (43 R171, 92 D9): a request that does not fit is answered at once, before the own
address is read and with the line untouched. -/
def Obligations.OversizedTransmitIsAnswered : Prop :=
  ∀ (s : State) (dst cmd : Byte) (payload : List Byte), s.eng = .idle → s.params.bufCap ≤ 6 + payload.length →
    exec (.transmit dst cmd payload) s = .next { s with out := s.out ++ [.txResult .payloadTooLarge] }

/-- The start of a transmit (43 R172, R185; 92 D9, D14): the frame is encoded, the line driven and the first byte sent; with no own address set
the block enters `FAULT` before any output. -/
def Obligations.TransmitStartsTheFrame : Prop :=
  ∀ (s : State) (dst cmd : Byte) (payload : List Byte), s.eng = .idle → 6 + payload.length < s.params.bufCap →
    (s.ownSet = true →
      ∃ m, exec (.transmit dst cmd payload) s = .next { s with
          txBuf := m, txLen := payload.length + 7, txIdx := 1, drive := true, eng := .txApp,
          out := s.out ++ [.drive true, .sendByte s.params.marker] } ∧
        WireFrameAt m s.params s.ownAddr dst cmd payload ∧
        ∀ a, payload.length + 7 ≤ a → m.read a = s.txBuf.read a) ∧
    (s.ownSet = false →
      exec (.transmit dst cmd payload) s = .next { s with faultReason := .ownAddrUnset, eng := .fault })

/-- The spec's own reading (43 R174, 92 D16): an error transmit sends a frame with the code as command and no payload,
and is the same as that transmit in every state. -/
def Obligations.TransmitErrorSendsAnEmptyFrame : Prop :=
  ∀ (s : State) (dst code : Byte),
    exec (.transmitError dst code) s = exec (.transmit dst code []) s ∧
    (s.eng = .idle → s.ownSet = true →
      ∃ m, exec (.transmitError dst code) s = .next { s with
          txBuf := m, txLen := 7, txIdx := 1, drive := true, eng := .txApp,
          out := s.out ++ [.drive true, .sendByte s.params.marker] } ∧
        WireFrameAt m s.params s.ownAddr dst code [] ∧ ∀ a, 7 ≤ a → m.read a = s.txBuf.read a)

/-- The internal row (43 R175, 92 D17): in `IDLE`, with the delivery captured and the own address set, the ACK frame to
`d` starts. -/
def Obligations.TransmitAckStartsTheAckFrame : Prop :=
  ∀ (s : State) (d : Byte), s.eng = .idle → s.dlv.isSome = true → s.ownSet = true →
    ∃ m, exec (.transmitAck d) s = .next { s with
        txBuf := m, txLen := 7, txIdx := 1, drive := true, eng := .txAck,
        out := s.out ++ [.drive true, .sendByte s.params.marker] } ∧
      WireFrameAt m s.params s.ownAddr d s.params.ackCode [] ∧ ∀ a, 7 ≤ a → m.read a = s.txBuf.read a

/-- The first branch of 43 R176 (92 D10): in `TX_APP` with a byte left, `TX_DONE` sends it. -/
def Obligations.TxDoneSendsTheNextByte : Prop :=
  ∀ s : State, s.eng = .txApp → s.txIdx < s.txLen → s.txIdx < s.params.bufCap →
    exec .txDone s = .next { s with txIdx := s.txIdx + 1, out := s.out ++ [.sendByte (s.txAt s.txIdx)] }

/-- The second branch of 43 R176 (92 D10): the last `TX_DONE` in `TX_APP` releases the line, answers the request and
returns to `IDLE`. -/
def Obligations.LastTxDoneAnswersTheRequest : Prop :=
  ∀ s : State, s.eng = .txApp → s.txLen ≤ s.txIdx →
    exec .txDone s = .next { s with
      drive := false, eng := .idle, out := s.out ++ [.drive false, .txResult .ok] }

/-- R177: `TX_DONE` in `TX_ACK`: the next byte; or the line is released and the delivery offered; or, with no
handler, `FAULT` after `DRIVE(0)`. -/
def Obligations.TxDoneInTxAckSendsOrDelivers : Prop :=
  ∀ s : State, s.eng = .txAck →
    (s.txIdx < s.txLen → s.txIdx < s.params.bufCap →
      exec .txDone s = .next { s with txIdx := s.txIdx + 1, out := s.out ++ [.sendByte (s.txAt s.txIdx)] }) ∧
    (∀ d, s.txLen ≤ s.txIdx → s.handlerSet = true → s.dlv = some d →
      exec .txDone s = .next { s with
        drive := false, eng := .deliver, out := s.out ++ [.drive false, .deliver d.src d.cmd d.payload] }) ∧
    (s.txLen ≤ s.txIdx → s.handlerSet = false →
      exec .txDone s = .next { s with
        drive := false, faultReason := .noHandler, eng := .fault, out := s.out ++ [.drive false] })

/-- An inference the spec marks as its own (43 R187): a transmit and one `TX_DONE` for each byte of its frame emit `DRIVE(1)`, the wire
frame byte by byte, `DRIVE(0)` and `TX_RESULT(OK)`, and end in `IDLE` with the wire frame in `tx_buf`, every byte after it
as before, and the accumulator as it was. -/
def Obligations.TransmitSendsTheWireFrameInOrder : Prop :=
  ∀ (s : State) (dst cmd : Byte) (payload : List Byte), s.eng = .idle → s.ownSet = true →
    6 + payload.length < s.params.bufCap →
    ∃ m, execAll (.transmit dst cmd payload :: List.replicate (payload.length + 7) .txDone) s = .next { s with
      txBuf := m, txLen := payload.length + 7, txIdx := payload.length + 7, drive := false,
      out := s.out ++ [.drive true] ++ (wireFrame s.params s.ownAddr dst cmd payload).map Output.sendByte ++
        [.drive false, .txResult .ok] } ∧
      WireFrameAt m s.params s.ownAddr dst cmd payload ∧
      ∀ a, payload.length + 7 ≤ a → m.read a = s.txBuf.read a

/-- An inference the spec marks as its own (43 R187, R189): an addressed candidate causes exactly one ACK frame to its sender, sent whole
before the delivery is offered; the ACK frame stands in `tx_buf`, and every byte after it is as before. -/
def Obligations.AddressedFrameIsAckedThenDelivered : Prop :=
  ∀ (s : State) (acc : List Byte) (f : Frame), s.eng = .idle → s.ownSet = true → s.handlerSet = true →
    AccumulatorIs s acc → decodeFrame (s.params.marker :: acc) = .ok f → f.dst = s.ownAddr →
    f.cmd ≠ s.params.ackCode → f.cmd ≠ s.params.broadcastCode →
    ∃ m, execAll (.rxByte s.params.marker :: List.replicate 7 .txDone) s = .next { s with
      rxLen := 0, dlv := some ⟨f.src, f.cmd, f.payload⟩, txBuf := m, txLen := 7, txIdx := 7, drive := false,
      eng := .deliver,
      out := s.out ++ [.drive true] ++
        (wireFrame s.params s.ownAddr f.src s.params.ackCode []).map Output.sendByte ++
        [.drive false, .deliver f.src f.cmd f.payload] } ∧
      WireFrameAt m s.params s.ownAddr f.src s.params.ackCode [] ∧
      ∀ a, 7 ≤ a → m.read a = s.txBuf.read a

/-- An inference the spec marks as its own (43 R191): along any steps without a `RESET` and not ending in `FAULT`, every
accepted request has had exactly one result, but for the one in `TX_APP` still being sent. -/
def Obligations.EveryAcceptedRequestHasOneResult : Prop :=
  ∀ (k : Nat) (s t : State), Host.Core.run Sys2Proof.core k s = .next t → resetIn k s = false → t.eng ≠ .fault →
    requestsIn k s + (decide (s.eng = .txApp)).toNat = resultsIn k s + (decide (t.eng = .txApp)).toNat

/-- The end of a run (70 R261, 92 D1): from any state, steps that take no `RESET` and reach `IDLE` have answered every accepted
request, the one in progress at the start included, left no event held and never been in `FAULT`. What "held" asks there is the model's choice (log 19): an event held earlier
may still be pending. -/
def Obligations.RunThatReachesIdleIsFinished : Prop :=
  ∀ (k : Nat) (s t : State), resetIn k s = false →
    Host.Core.run Sys2Proof.core k s = .next t → t.eng = .idle → Finished k s

/-- The per-byte handshake (43 R186, 92 D10; 10_state R34): a step sends at most one byte, and a byte it sends is the one then outstanding,
`tx_buf[tx_idx - 1]`, with the engine transmitting. It sends one only where none was outstanding before (the first byte, from
`IDLE`) or in taking the `TX_DONE` of the byte before. -/
def Obligations.AtMostOneByteIsOutstanding : Prop :=
  ∀ s t : State, step s = .next t →
    t.out.countP Output.isSend ≤ 1 ∧
    ∀ b, Output.sendByte b ∈ t.out →
      Transmitting t.eng ∧ 1 ≤ t.txIdx ∧ t.txAt (t.txIdx - 1) = b ∧
      ((s.eng = .idle ∧ t.txIdx = 1) ∨
        (Transmitting s.eng ∧ taken s = some .txDone ∧ t.txIdx = s.txIdx + 1))

/-- 10_state R27: whatever row runs, a change of `drive` emits `DRIVE` of the new level in the same step. -/
def Obligations.ChangeOfDriveIsEmitted : Prop :=
  ∀ s t : State, step s = .next t → t.drive ≠ s.drive → Output.drive t.drive ∈ t.out

/-! ### Delivery, configuration, reset, outputs -/

/-- The spec's own form of the callback's return (43 R180, 92 D12). -/
def Obligations.DeliverAcceptEndsTheDelivery : Prop :=
  ∀ s : State, s.eng = .deliver → exec .deliverAccept s = .next { s with dlv := none, eng := .idle }

/-- 43 R182 (92 D18): in any state but `FAULT`, whatever the address. -/
def Obligations.ConfigureSetsTheOwnAddress : Prop :=
  ∀ (s : State) (a : Byte), s.eng ≠ .fault → exec (.configure a) s = .next { s with ownAddr := a, ownSet := true }

/-- 43 R183 (92 D15, D18): in any state but `FAULT`. -/
def Obligations.SetHandlerSetsItsFlag : Prop :=
  ∀ s : State, s.eng ≠ .fault → exec .setHandler s = .next { s with handlerSet := true }

/-- 70 R240 (92 D20): `RESET` is accepted in every state, releases a driven line, and sets the elements R240 names. Every byte of both
buffers is then a fresh free value (log 7); nothing is said of `own_addr`, which then has no value (log 9). -/
def Obligations.ResetIsAcceptedInEveryState : Prop :=
  ∀ s : State, ∃ t, exec .reset s = .next t ∧
    t.eng = .idle ∧ t.ownSet = false ∧ t.handlerSet = false ∧ t.drive = false ∧ t.rxLen = 0 ∧ t.txLen = 0 ∧
    t.txIdx = 0 ∧ t.dlv = none ∧
    (∀ i, t.rxAt i = Config.rxFree (s.resets + 1) i ∧ t.txAt i = Config.txFree (s.resets + 1) i) ∧
    t.faultReason = s.faultReason ∧
    t.params = s.params ∧ t.pending = s.pending ∧
    t.out = s.out ++ (if s.drive then [.drive false] else [])

/-- The values of 10_state R40 that the spec gives (92 D12, D14, D15, D20); and every byte of both buffers is a free value, for
R40's "any value" (log 7). -/
def Obligations.ResetStateHasTheGivenValues : Prop :=
  State.reset.eng = .idle ∧ State.reset.ownSet = false ∧ State.reset.handlerSet = false ∧
    State.reset.drive = false ∧ State.reset.rxLen = 0 ∧ State.reset.txLen = 0 ∧ State.reset.txIdx = 0 ∧
    State.reset.dlv = none ∧
    ∀ i, State.reset.rxAt i = Config.rxFree State.reset.resets i ∧ State.reset.txAt i = Config.txFree State.reset.resets i

/-- The model's reading of the output rows (log 13; 30_encoding R81, 00_scope R14 `emit`): each appends its event and changes nothing else. -/
def Obligations.OutputRowsAppendTheirEvent : Prop :=
  ∀ (s : State) (d : Bool) (b src cmd : Byte) (payload : List Byte) (r : TxResult),
    exec (.drive d) s = .next { s with out := s.out ++ [.drive d] } ∧
    exec (.sendByte b) s = .next { s with out := s.out ++ [.sendByte b] } ∧
    exec (.deliver src cmd payload) s = .next { s with out := s.out ++ [.deliver src cmd payload] } ∧
    exec (.txResult r) s = .next { s with out := s.out ++ [.txResult r] }

/-! ### The transition table and the step -/

/-- The "drop" cells of 43 R170 (92 D11, D19): taken with no effect. -/
def Obligations.DroppedEventsHaveNoEffect : Prop :=
  ∀ (s : State) (b : Byte),
    (Transmitting s.eng → exec (.rxByte b) s = .next s ∧ exec .rxByteTerminator s = .next s ∧
      (b ≠ s.params.marker → exec (.rxByteData b) s = .next s)) ∧
    (s.eng = .idle ∨ s.eng = .deliver → exec .txDone s = .next s) ∧
    (s.eng = .idle ∨ Transmitting s.eng → exec .deliverAccept s = .next s)

/-- The "hold" cells of 43 R170 (92 D12, D13, D24): an event presented alone in one of them has no effect and stays pending. That the
step then answers the same state with the output list empty, as its form of waiting, is the model's choice (log 5). -/
def Obligations.HeldEventsStayPending : Prop :=
  ∀ (s : State) (r : Record) (i : Instr), s.pending = [r] → decodeInput r = .ok i →
    (∃ b, i = .rxByte b ∧ (s.eng = .deliver ∨ s.eng = .fault)) ∨
    (isRequest i = true ∧ s.eng ≠ .idle) ∨
    (i ≠ .reset ∧ s.eng = .fault) →
    exec i s = .next s ∧ step s = .next { s with out := [] }

/-- Where every presented event is held, or none is presented, a step waits (60_exceptions R231; log 5). -/
def Obligations.StepWaitsWhileEveryEventIsHeld : Prop :=
  ∀ s : State, (∀ q ∈ s.pending, ∃ j, decodeInput q = .ok j ∧ held j s.eng = true) →
    step s = .next { s with out := [] }

/-- The model's fetch (log 3): a step runs the first presented event that the engine state does not hold, with the
output list empty and that event's record gone. -/
def Obligations.StepRunsTheFirstEventNotHeld : Prop :=
  ∀ (s : State) (before after : List Record) (r : Record) (i : Instr),
    s.pending = before ++ r :: after →
    (∀ q ∈ before, ∃ j, decodeInput q = .ok j ∧ held j s.eng = true) →
    decodeInput r = .ok i → held i s.eng = false →
    step s = exec i { s with pending := before ++ after, out := [] }

/-- 30_encoding R85: a tag outside 0x00 to 0x07 is not an event, and a step that reaches such a record refuses it by name. -/
def Obligations.StepRefusesWhatIsNoEvent : Prop :=
  ∀ (s : State) (before after : List Record) (tag : Nat) (fields : List Nat),
    7 < tag → s.pending = before ++ (tag :: fields) :: after →
    (∀ q ∈ before, ∃ j, decodeInput q = .ok j ∧ held j s.eng = true) →
    ∃ why, decodeInput (tag :: fields) = .error why ∧ step s = .refused (.notAnEvent why)

/-- The spec's own choice (60_exceptions R221, 92 D24): only a `RESET` moves a faulted block. -/
def Obligations.FaultIsLeftByResetOnly : Prop :=
  ∀ s t : State, s.eng = .fault → step s = .next t →
    t = { s with out := [] } ∨ taken s = some .reset

/-- The engine-state changes listed under 43 R170 (92 D11 to D13, D19, D24), each with the event that makes it: no other change exists.
`FAULT` is entered with `drive` as it was from `IDLE`, and released from `TX_ACK`; so it is 0 in every state that meets R36. -/
def Obligations.EngineMovesByTheTransitionTable : Prop :=
  ∀ (s t : State) (i : Instr), isInput i = true → exec i s = .next t →
    t.eng = s.eng ∨
    (i = .reset ∧ t.eng = .idle) ∨
    (s.eng = .idle ∧ t.eng = .txApp ∧ isRequest i = true) ∨
    (s.eng = .idle ∧ t.eng = .txAck ∧ i = .rxByte s.params.marker) ∨
    (s.eng = .idle ∧ t.eng = .deliver ∧ i = .rxByte s.params.marker) ∨
    (s.eng = .txApp ∧ t.eng = .idle ∧ i = .txDone) ∨
    (s.eng = .txAck ∧ t.eng = .deliver ∧ i = .txDone) ∨
    (s.eng = .deliver ∧ t.eng = .idle ∧ i = .deliverAccept) ∨
    (t.eng = .fault ∧ t.drive = (if s.eng = .txAck then false else s.drive) ∧ (BlockInv s → t.drive = false) ∧
      ((s.eng = .idle ∧ (isRequest i = true ∨ i = .rxByte s.params.marker)) ∨ (s.eng = .txAck ∧ i = .txDone)))

/-- 10_state R39, with `RESET` (70 R240) beside each writer: who writes the buffers and cursors, the own address and the
handler flag, over every row. The free contents of the buffers (log 7) stay as well. -/
def Obligations.EachElementHasItsWriter : Prop :=
  ∀ (s t : State) (i : Instr), exec i s = .next t → i ≠ .reset →
    t.resets = s.resets ∧
    (isReceive i = false → t.rxBuf = s.rxBuf ∧ t.rxLen = s.rxLen) ∧
    (isTransmitPath i = false → t.txBuf = s.txBuf ∧ t.txLen = s.txLen ∧ t.txIdx = s.txIdx) ∧
    ((∀ a, i ≠ .configure a) → t.ownAddr = s.ownAddr ∧ t.ownSet = s.ownSet) ∧
    (i ≠ .setHandler → t.handlerSet = s.handlerSet)

/-- 10_state R38: the parameters are configuration; no row writes them. -/
def Obligations.ParametersNeverChange : Prop :=
  ∀ s t : State, step s = .next t → t.params = s.params

/-! ### Invariants -/

/-- The machine right after reset meets the invariant. -/
def Obligations.ResetMeetsTheInvariant : Prop := Inv State.reset

/-- An inference the spec marks as its own (10_state R36), with what 20_memory R51 and R53 say of the buffers: every step keeps the
seven invariants, and keeps both buffers canonical, inside their capacities and written where they are read. -/
def Obligations.EveryStepKeepsTheInvariant : Prop :=
  ∀ s t : State, Inv s → step s = .next t → Inv t

/-- 20_memory R52: every rule keeps the index in range, so from a state that meets the invariant no step faults. -/
def Obligations.NoStepFaults : Prop :=
  ∀ (s : State) (f : Fault), Inv s → step s ≠ .fault f

/-- 43 R170 is complete: from a state that meets the invariant, every input event is answered with a next state. -/
def Obligations.EveryInputEventIsAnswered : Prop :=
  ∀ (s : State) (i : Instr), Inv s → isInput i = true → ∃ t, exec i s = .next t

/-! ### Encodings and parameters -/

/-- Decoding undoes encoding, for every well-formed instruction and every operand. -/
def Obligations.DecodingUndoesEncoding : Prop :=
  ∀ (p : Params) (i : Instr), i.wellFormed p = true → decode p (encode p i) = .ok i

/-- An event record that decodes is the one its event encodes to: each event has one record. -/
def Obligations.DecodedRecordIsTheEncodedOne : Prop :=
  ∀ (p : Params) (r : Record) (i : Instr), decodeRecord r = .ok i → encode p i = .event r

/-- A few words written out from 30_encoding R80 and R81 (their numbering is the spec's own, 92 D23). That a table word's bytes are the
record's items, the lowest first, with zeros after them, is the model's (log 12). -/
def Obligations.SampleRecordsDecode : Prop :=
  decodeRecord [0x05, 0x09, 0x42, 3, 0x01, 0x02, 0x03] = .ok (.transmit 0x09 0x42 [0x01, 0x02, 0x03]) ∧
  decodeRecord [0x06, 0x05, 0x33] = .ok (.transmitError 0x05 0x33) ∧
  decodeRecord [0x83, 0x05, 0x10, 2, 0xAA, 0xBB] = .ok (.deliver 0x05 0x10 [0xAA, 0xBB]) ∧
  decodeInput [0x08] = .error (.unknownTag 0x08) ∧
  decodeTableWord 8 0x02 = some .txDone ∧
  decodeTableWord 16 0x7E01 = some (.rxByte 0x7E)

/-- 00_scope R9, R10 (92 D6): a `BUF_CAP` below 7 gives no configuration; any other gives one with that capacity and the derived ones. -/
def Obligations.BufferBelowSevenIsRefused : Prop :=
  ∀ (marker ackCode broadcastCode : Byte) (n : Nat),
    (n < 7 → Params.ofBufCap marker ackCode broadcastCode n = none) ∧
    (7 ≤ n → ∃ p, Params.ofBufCap marker ackCode broadcastCode n = some p ∧ p.bufCap = n ∧ p.accCap = n - 1 ∧
      p.maxPayload = n - 7 ∧ p.marker = marker ∧ p.ackCode = ackCode ∧ p.broadcastCode = broadcastCode)

/-! ### Unwritten bytes, and runs that fault -/

/-- An inference the spec marks as its own (20_memory R52): no rule reads a byte that nothing has written. From a state that meets the
invariant, a step does the same whatever the free contents of the buffers (log 7) are: with them drawn anew, the next state
differs in nothing else. -/
def Obligations.UnwrittenBytesAreNeverUsed : Prop :=
  ∀ (s t : State) (n : Nat), Inv s → step s = .next t →
    ∃ k, step { s with resets := n } = .next { t with resets := k }

/-- The spec's own choice (60_exceptions R221, 92 D24), along runs: from `FAULT`, steps that take no `RESET` accept no request,
answer none and change nothing but the output list. -/
def Obligations.FaultLastsUntilReset : Prop :=
  ∀ (k : Nat) (s t : State), Failed s → resetIn k s = false → Host.Core.run Sys2Proof.core k s = .next t →
    Failed t ∧ t = { s with out := t.out } ∧ requestsIn k s = 0 ∧ resultsIn k s = 0

/-- The spec's own choice (92 D24, 60_exceptions R220, R221): each cause of a fault (an own address read while unset: a request
that fits, or a candidate that decodes; a delivery due with no handler: a no-ACK frame, or the end of an ACK) takes the block to
`FAULT`, and no run that goes on from there, `RESET` or not, is ever finished. -/
def Obligations.FaultedRunIsNeverFinished : Prop :=
  ∀ s : State,
    (s.eng = .idle ∧ s.ownSet = false ∧
      ((∃ dst cmd payload, taken s = some (.transmit dst cmd payload) ∧ 6 + payload.length < s.params.bufCap) ∨
        ∃ dst code, taken s = some (.transmitError dst code))) ∨
    (s.eng = .idle ∧ taken s = some (.rxByte s.params.marker) ∧
      ∃ acc f, AccumulatorIs s acc ∧ decodeFrame (s.params.marker :: acc) = .ok f ∧
        (s.ownSet = false ∨
          (s.ownSet = true ∧ s.handlerSet = false ∧ f.dst = s.ownAddr ∧ f.cmd ≠ s.params.ackCode ∧
            f.cmd = s.params.broadcastCode))) ∨
    (s.eng = .txAck ∧ s.txLen ≤ s.txIdx ∧ s.handlerSet = false ∧ taken s = some .txDone) →
    (∃ u, step s = .next u ∧ Failed u) ∧ ∀ k, 1 ≤ k → ¬ Finished k s

/-- An inference the spec marks as its own (70 R242) with its end of a run (70 R261): a request in progress at a `RESET` never gets
its result, so no run that takes one in `TX_APP` is ever finished, whatever else it answers. -/
def Obligations.AbandonedRequestIsNeverFinished : Prop :=
  ∀ (j k : Nat) (s u : State), j < k → Host.Core.run Sys2Proof.core j s = .next u → u.eng = .txApp →
    taken u = some .reset → ¬ Finished k s
end

