-- ==== Sys2Proof/Laws/Codec.lean ====
section
/-! SUPPORT. The checksum and the codec on byte lists, and the decoder's field readers. -/

namespace Sys2Proof

@[simp] theorem byteSum_nil : byteSum [] = 0 := rfl

@[simp] theorem byteSum_cons (b : Byte) (bs : List Byte) : byteSum (b :: bs) = b.toNat + byteSum bs := rfl

@[simp] theorem byteSum_append (p q : List Byte) : byteSum (p ++ q) = byteSum p + byteSum q := by
  induction p with
  | nil => simp
  | cons b p ih => simp [ih]; omega

theorem byteSum_eq_sum (bs : List Byte) : byteSum bs = (bs.map BitVec.toNat).sum := by
  induction bs with
  | nil => rfl
  | cons b bs ih => simp [ih]

/-- Both branches of `compute` cut the sum to eight bits. -/
theorem compute_eq (bs : List Byte) : compute bs = BitVec.ofNat 8 (byteSum bs) := by
  unfold compute low8
  split
  · apply BitVec.eq_of_toNat_eq; simp
  · rfl

theorem compute_toNat (bs : List Byte) : (compute bs).toNat = byteSum bs % 256 := by
  simp [compute_eq]

theorem verify_iff (range : List Byte) (claimed : Byte) : verify range claimed = true ↔ compute range = claimed := by
  simp [verify]

@[simp] theorem length_frameBody (p : Params) (src dst cmd : Byte) (payload : List Byte) :
    (frameBody p src dst cmd payload).length = payload.length + 5 := rfl

@[simp] theorem length_wireFrame (p : Params) (src dst cmd : Byte) (payload : List Byte) :
    (wireFrame p src dst cmd payload).length = payload.length + 7 := by
  simp [wireFrame]

theorem wireFrame_head (p : Params) (src dst cmd : Byte) (payload : List Byte) :
    (wireFrame p src dst cmd payload)[0]? = some p.marker := rfl

/-- `decode` of a list with at least six positions, its last byte named. -/
theorem decodeFrame_concat (start dst src ver cmd : Byte) (payload : List Byte) (chk : Byte) :
    decodeFrame (start :: dst :: src :: ver :: cmd :: (payload ++ [chk])) =
      if verify (start :: dst :: src :: ver :: cmd :: payload) chk then .ok ⟨dst, src, cmd, payload⟩
      else .error .checksumMismatch := by
  cases hp : payload with
  | nil => rfl
  | cons c rest =>
    have h1 : (c :: (rest ++ [chk])).dropLast = c :: rest := by
      rw [← List.cons_append, List.dropLast_concat]
    have h2 : (c :: (rest ++ [chk])).getLast (List.cons_ne_nil _ _) = chk := by
      rw [List.getLast_cons (by simp)]; simp
    simp only [List.cons_append, decodeFrame, h1, h2]

/-- A candidate built from a frame decodes to it (30_encoding R72, R77). -/
theorem decodeFrame_encodeCandidate (p : Params) (f : Frame) : decodeFrame (encodeCandidate p f) = .ok f := by
  have := decodeFrame_concat p.marker f.dst f.src version f.cmd f.payload
    (compute (frameBody p f.src f.dst f.cmd f.payload))
  simpa [encodeCandidate, frameBody, verify] using this

@[simp] theorem decodeByte_toNat (b : Byte) : decodeByte b.toNat = .ok b := by
  have : b.toNat < 256 := b.isLt
  simp [decodeByte, this]

@[simp] theorem takeByte_toNat (tag : Nat) (b : Byte) (xs : List Nat) : takeByte tag (b.toNat :: xs) = .ok (b, xs) := by
  simp [takeByte]

@[simp] theorem takeBytes_encodeBytes (tag : Nat) (bs : List Byte) (xs : List Nat) :
    takeBytes tag bs.length (encodeBytes bs ++ xs) = .ok (bs, xs) := by
  induction bs with
  | nil => rfl
  | cons b bs ih =>
    simp only [encodeBytes] at ih
    simp [takeBytes, encodeBytes, ih]

@[simp] theorem takePayload_encodePayload (tag : Nat) (bs : List Byte) (xs : List Nat) :
    takePayload tag (encodePayload bs ++ xs) = .ok (bs, xs) :=
  takeBytes_encodeBytes tag bs xs

theorem decodeByte_eq_ok {x : Nat} {b : Byte} : decodeByte x = .ok b ↔ x = b.toNat := by
  constructor
  · intro h
    unfold decodeByte at h
    split at h
    · injection h with h
      subst h
      simp; omega
    · cases h
  · rintro rfl; exact decodeByte_toNat b

theorem takeByte_eq_ok {tag : Nat} {xs ys : List Nat} {b : Byte} :
    takeByte tag xs = .ok (b, ys) ↔ xs = b.toNat :: ys := by
  constructor
  · intro h
    cases xs with
    | nil => cases h
    | cons x xs =>
      unfold takeByte at h
      cases hx : decodeByte x with
      | error e => simp [hx] at h
      | ok c =>
        simp only [hx] at h
        injection h with h
        injection h with h1 h2
        subst h1 h2
        rw [decodeByte_eq_ok.1 hx]
  · rintro rfl; exact takeByte_toNat tag b ys

theorem takeBytes_eq_ok {tag : Nat} : ∀ {n : Nat} {xs ys : List Nat} {bs : List Byte},
    takeBytes tag n xs = .ok (bs, ys) ↔ bs.length = n ∧ xs = encodeBytes bs ++ ys
  | 0, xs, ys, bs => by
    constructor
    · intro h; injection h with h; injection h with h1 h2; subst h1 h2; exact ⟨rfl, rfl⟩
    · rintro ⟨hl, rfl⟩; rw [List.length_eq_zero_iff.1 hl]; rfl
  | n + 1, xs, ys, bs => by
    constructor
    · intro h
      unfold takeBytes at h
      split at h
      · cases h
      next b xs₁ hb =>
      split at h
      · cases h
      next cs xs₂ hc =>
      injection h with h; injection h with h1 h2
      subst h1 h2
      obtain ⟨hl, rfl⟩ := takeBytes_eq_ok.1 hc
      rw [takeByte_eq_ok.1 hb]
      exact ⟨by simp [hl], rfl⟩
    · rintro ⟨hl, rfl⟩; rw [← hl]; exact takeBytes_encodeBytes tag bs ys

theorem takePayload_eq_ok {tag : Nat} {xs ys : List Nat} {bs : List Byte} :
    takePayload tag xs = .ok (bs, ys) ↔ xs = encodePayload bs ++ ys := by
  constructor
  · intro h
    cases xs with
    | nil => cases h
    | cons n xs =>
      obtain ⟨rfl, rfl⟩ := takeBytes_eq_ok.1 h
      rfl
  · rintro rfl; exact takePayload_encodePayload tag bs ys

theorem takeOne_eq_ok {tag : Nat} {mk : Byte → Instr} {xs ys : List Nat} {i : Instr} :
    takeOne tag mk xs = .ok (i, ys) ↔ ∃ x, i = mk x ∧ xs = x.toNat :: ys := by
  constructor
  · intro h
    unfold takeOne at h
    split at h
    · cases h
    next x xs₁ hx =>
    injection h with h; injection h with h1 h2
    subst h1 h2
    exact ⟨x, rfl, takeByte_eq_ok.1 hx⟩
  · rintro ⟨x, rfl, rfl⟩; simp [takeOne]

theorem takeTwo_eq_ok {tag : Nat} {mk : Byte → Byte → Instr} {xs ys : List Nat} {i : Instr} :
    takeTwo tag mk xs = .ok (i, ys) ↔ ∃ x y, i = mk x y ∧ xs = x.toNat :: y.toNat :: ys := by
  constructor
  · intro h
    unfold takeTwo at h
    split at h
    · cases h
    next x xs₁ hx =>
    split at h
    · cases h
    next y xs₂ hy =>
    injection h with h; injection h with h1 h2
    subst h1 h2
    exact ⟨x, y, rfl, by rw [takeByte_eq_ok.1 hx, takeByte_eq_ok.1 hy]⟩
  · rintro ⟨x, y, rfl, rfl⟩; simp [takeTwo]

theorem takeDrive_eq_ok {tag : Nat} {xs ys : List Nat} {i : Instr} :
    takeDrive tag xs = .ok (i, ys) ↔ ∃ d : Bool, i = .drive d ∧ xs = d.toNat :: ys := by
  constructor
  · intro h
    match xs, h with
    | 0 :: xs, h => injection h with h; injection h with h1 h2; exact ⟨false, h1.symm, by rw [h2]; rfl⟩
    | 1 :: xs, h => injection h with h; injection h with h1 h2; exact ⟨true, h1.symm, by rw [h2]; rfl⟩
    | (n + 2) :: xs, h => simp [takeDrive] at h
  · rintro ⟨d, rfl, rfl⟩; cases d <;> rfl

theorem takeResult_eq_ok {tag : Nat} {xs ys : List Nat} {i : Instr} :
    takeResult tag xs = .ok (i, ys) ↔ ∃ r : TxResult, i = .txResult r ∧ xs = r.code :: ys := by
  constructor
  · intro h
    match xs, h with
    | 0 :: xs, h => injection h with h; injection h with h1 h2; exact ⟨.ok, h1.symm, by rw [h2]; rfl⟩
    | 1 :: xs, h => injection h with h; injection h with h1 h2; exact ⟨.payloadTooLarge, h1.symm, by rw [h2]; rfl⟩
    | (n + 2) :: xs, h => simp [takeResult] at h
  · rintro ⟨r, rfl, rfl⟩; cases r <;> rfl

theorem takeMessage_eq_ok {tag : Nat} {mk : Byte → Byte → List Byte → Instr} {xs ys : List Nat} {i : Instr} :
    takeMessage tag mk xs = .ok (i, ys) ↔
      ∃ x y bs, i = mk x y bs ∧ xs = x.toNat :: y.toNat :: (encodePayload bs ++ ys) := by
  constructor
  · intro h
    unfold takeMessage at h
    split at h
    · cases h
    next x xs₁ hx =>
    split at h
    · cases h
    next y xs₂ hy =>
    split at h
    · cases h
    next bs xs₃ hb =>
    injection h with h; injection h with h1 h2
    subst h1 h2
    exact ⟨x, y, bs, rfl, by rw [takeByte_eq_ok.1 hx, takeByte_eq_ok.1 hy, takePayload_eq_ok.1 hb]⟩
  · rintro ⟨x, y, bs, rfl, rfl⟩; simp [takeMessage]

end Sys2Proof
end

