-- ==== Sys2Proof/Laws/State.lean ====
section
/-! SUPPORT. What each named update of the state leaves in each field. -/

namespace Sys2Proof.Machine

/-! `emit` -/

@[simp] theorem emit_params (o : Output) (s : State) : (emit o s).params = s.params := rfl
@[simp] theorem emit_pending (o : Output) (s : State) : (emit o s).pending = s.pending := rfl
@[simp] theorem emit_out (o : Output) (s : State) : (emit o s).out = s.out ++ [o] := rfl
@[simp] theorem emit_resets (o : Output) (s : State) : (emit o s).resets = s.resets := rfl
@[simp] theorem emit_eng (o : Output) (s : State) : (emit o s).eng = s.eng := rfl
@[simp] theorem emit_faultReason (o : Output) (s : State) : (emit o s).faultReason = s.faultReason := rfl
@[simp] theorem emit_ownAddr (o : Output) (s : State) : (emit o s).ownAddr = s.ownAddr := rfl
@[simp] theorem emit_ownSet (o : Output) (s : State) : (emit o s).ownSet = s.ownSet := rfl
@[simp] theorem emit_handlerSet (o : Output) (s : State) : (emit o s).handlerSet = s.handlerSet := rfl
@[simp] theorem emit_drive (o : Output) (s : State) : (emit o s).drive = s.drive := rfl
@[simp] theorem emit_rxBuf (o : Output) (s : State) : (emit o s).rxBuf = s.rxBuf := rfl
@[simp] theorem emit_rxLen (o : Output) (s : State) : (emit o s).rxLen = s.rxLen := rfl
@[simp] theorem emit_txBuf (o : Output) (s : State) : (emit o s).txBuf = s.txBuf := rfl
@[simp] theorem emit_txLen (o : Output) (s : State) : (emit o s).txLen = s.txLen := rfl
@[simp] theorem emit_txIdx (o : Output) (s : State) : (emit o s).txIdx = s.txIdx := rfl
@[simp] theorem emit_dlv (o : Output) (s : State) : (emit o s).dlv = s.dlv := rfl

/-! `setDrive` -/

@[simp] theorem setDrive_params (d : Bool) (s : State) : (setDrive d s).params = s.params := rfl
@[simp] theorem setDrive_pending (d : Bool) (s : State) : (setDrive d s).pending = s.pending := rfl
@[simp] theorem setDrive_out (d : Bool) (s : State) : (setDrive d s).out = s.out ++ [.drive d] := rfl
@[simp] theorem setDrive_resets (d : Bool) (s : State) : (setDrive d s).resets = s.resets := rfl
@[simp] theorem setDrive_eng (d : Bool) (s : State) : (setDrive d s).eng = s.eng := rfl
@[simp] theorem setDrive_faultReason (d : Bool) (s : State) : (setDrive d s).faultReason = s.faultReason := rfl
@[simp] theorem setDrive_ownAddr (d : Bool) (s : State) : (setDrive d s).ownAddr = s.ownAddr := rfl
@[simp] theorem setDrive_ownSet (d : Bool) (s : State) : (setDrive d s).ownSet = s.ownSet := rfl
@[simp] theorem setDrive_handlerSet (d : Bool) (s : State) : (setDrive d s).handlerSet = s.handlerSet := rfl
@[simp] theorem setDrive_drive (d : Bool) (s : State) : (setDrive d s).drive = d := rfl
@[simp] theorem setDrive_rxBuf (d : Bool) (s : State) : (setDrive d s).rxBuf = s.rxBuf := rfl
@[simp] theorem setDrive_rxLen (d : Bool) (s : State) : (setDrive d s).rxLen = s.rxLen := rfl
@[simp] theorem setDrive_txBuf (d : Bool) (s : State) : (setDrive d s).txBuf = s.txBuf := rfl
@[simp] theorem setDrive_txLen (d : Bool) (s : State) : (setDrive d s).txLen = s.txLen := rfl
@[simp] theorem setDrive_txIdx (d : Bool) (s : State) : (setDrive d s).txIdx = s.txIdx := rfl
@[simp] theorem setDrive_dlv (d : Bool) (s : State) : (setDrive d s).dlv = s.dlv := rfl

/-! `setOwnAddr` -/

@[simp] theorem setOwnAddr_params (a : Byte) (s : State) : (setOwnAddr a s).params = s.params := rfl
@[simp] theorem setOwnAddr_pending (a : Byte) (s : State) : (setOwnAddr a s).pending = s.pending := rfl
@[simp] theorem setOwnAddr_out (a : Byte) (s : State) : (setOwnAddr a s).out = s.out := rfl
@[simp] theorem setOwnAddr_resets (a : Byte) (s : State) : (setOwnAddr a s).resets = s.resets := rfl
@[simp] theorem setOwnAddr_eng (a : Byte) (s : State) : (setOwnAddr a s).eng = s.eng := rfl
@[simp] theorem setOwnAddr_faultReason (a : Byte) (s : State) : (setOwnAddr a s).faultReason = s.faultReason := rfl
@[simp] theorem setOwnAddr_ownAddr (a : Byte) (s : State) : (setOwnAddr a s).ownAddr = a := rfl
@[simp] theorem setOwnAddr_ownSet (a : Byte) (s : State) : (setOwnAddr a s).ownSet = true := rfl
@[simp] theorem setOwnAddr_handlerSet (a : Byte) (s : State) : (setOwnAddr a s).handlerSet = s.handlerSet := rfl
@[simp] theorem setOwnAddr_drive (a : Byte) (s : State) : (setOwnAddr a s).drive = s.drive := rfl
@[simp] theorem setOwnAddr_rxBuf (a : Byte) (s : State) : (setOwnAddr a s).rxBuf = s.rxBuf := rfl
@[simp] theorem setOwnAddr_rxLen (a : Byte) (s : State) : (setOwnAddr a s).rxLen = s.rxLen := rfl
@[simp] theorem setOwnAddr_txBuf (a : Byte) (s : State) : (setOwnAddr a s).txBuf = s.txBuf := rfl
@[simp] theorem setOwnAddr_txLen (a : Byte) (s : State) : (setOwnAddr a s).txLen = s.txLen := rfl
@[simp] theorem setOwnAddr_txIdx (a : Byte) (s : State) : (setOwnAddr a s).txIdx = s.txIdx := rfl
@[simp] theorem setOwnAddr_dlv (a : Byte) (s : State) : (setOwnAddr a s).dlv = s.dlv := rfl

/-! `setHandlerFlag` -/

@[simp] theorem setHandlerFlag_params (s : State) : (setHandlerFlag s).params = s.params := rfl
@[simp] theorem setHandlerFlag_pending (s : State) : (setHandlerFlag s).pending = s.pending := rfl
@[simp] theorem setHandlerFlag_out (s : State) : (setHandlerFlag s).out = s.out := rfl
@[simp] theorem setHandlerFlag_resets (s : State) : (setHandlerFlag s).resets = s.resets := rfl
@[simp] theorem setHandlerFlag_eng (s : State) : (setHandlerFlag s).eng = s.eng := rfl
@[simp] theorem setHandlerFlag_faultReason (s : State) : (setHandlerFlag s).faultReason = s.faultReason := rfl
@[simp] theorem setHandlerFlag_ownAddr (s : State) : (setHandlerFlag s).ownAddr = s.ownAddr := rfl
@[simp] theorem setHandlerFlag_ownSet (s : State) : (setHandlerFlag s).ownSet = s.ownSet := rfl
@[simp] theorem setHandlerFlag_handlerSet (s : State) : (setHandlerFlag s).handlerSet = true := rfl
@[simp] theorem setHandlerFlag_drive (s : State) : (setHandlerFlag s).drive = s.drive := rfl
@[simp] theorem setHandlerFlag_rxBuf (s : State) : (setHandlerFlag s).rxBuf = s.rxBuf := rfl
@[simp] theorem setHandlerFlag_rxLen (s : State) : (setHandlerFlag s).rxLen = s.rxLen := rfl
@[simp] theorem setHandlerFlag_txBuf (s : State) : (setHandlerFlag s).txBuf = s.txBuf := rfl
@[simp] theorem setHandlerFlag_txLen (s : State) : (setHandlerFlag s).txLen = s.txLen := rfl
@[simp] theorem setHandlerFlag_txIdx (s : State) : (setHandlerFlag s).txIdx = s.txIdx := rfl
@[simp] theorem setHandlerFlag_dlv (s : State) : (setHandlerFlag s).dlv = s.dlv := rfl

/-! `raise` -/

@[simp] theorem raise_params (r : FaultReason) (s : State) : (raise r s).params = s.params := rfl
@[simp] theorem raise_pending (r : FaultReason) (s : State) : (raise r s).pending = s.pending := rfl
@[simp] theorem raise_out (r : FaultReason) (s : State) : (raise r s).out = s.out := rfl
@[simp] theorem raise_resets (r : FaultReason) (s : State) : (raise r s).resets = s.resets := rfl
@[simp] theorem raise_eng (r : FaultReason) (s : State) : (raise r s).eng = .fault := rfl
@[simp] theorem raise_faultReason (r : FaultReason) (s : State) : (raise r s).faultReason = r := rfl
@[simp] theorem raise_ownAddr (r : FaultReason) (s : State) : (raise r s).ownAddr = s.ownAddr := rfl
@[simp] theorem raise_ownSet (r : FaultReason) (s : State) : (raise r s).ownSet = s.ownSet := rfl
@[simp] theorem raise_handlerSet (r : FaultReason) (s : State) : (raise r s).handlerSet = s.handlerSet := rfl
@[simp] theorem raise_drive (r : FaultReason) (s : State) : (raise r s).drive = s.drive := rfl
@[simp] theorem raise_rxBuf (r : FaultReason) (s : State) : (raise r s).rxBuf = s.rxBuf := rfl
@[simp] theorem raise_rxLen (r : FaultReason) (s : State) : (raise r s).rxLen = s.rxLen := rfl
@[simp] theorem raise_txBuf (r : FaultReason) (s : State) : (raise r s).txBuf = s.txBuf := rfl
@[simp] theorem raise_txLen (r : FaultReason) (s : State) : (raise r s).txLen = s.txLen := rfl
@[simp] theorem raise_txIdx (r : FaultReason) (s : State) : (raise r s).txIdx = s.txIdx := rfl
@[simp] theorem raise_dlv (r : FaultReason) (s : State) : (raise r s).dlv = s.dlv := rfl

/-! `capture` -/

@[simp] theorem capture_params (f : Frame) (s : State) : (capture f s).params = s.params := rfl
@[simp] theorem capture_pending (f : Frame) (s : State) : (capture f s).pending = s.pending := rfl
@[simp] theorem capture_out (f : Frame) (s : State) : (capture f s).out = s.out := rfl
@[simp] theorem capture_resets (f : Frame) (s : State) : (capture f s).resets = s.resets := rfl
@[simp] theorem capture_eng (f : Frame) (s : State) : (capture f s).eng = s.eng := rfl
@[simp] theorem capture_faultReason (f : Frame) (s : State) : (capture f s).faultReason = s.faultReason := rfl
@[simp] theorem capture_ownAddr (f : Frame) (s : State) : (capture f s).ownAddr = s.ownAddr := rfl
@[simp] theorem capture_ownSet (f : Frame) (s : State) : (capture f s).ownSet = s.ownSet := rfl
@[simp] theorem capture_handlerSet (f : Frame) (s : State) : (capture f s).handlerSet = s.handlerSet := rfl
@[simp] theorem capture_drive (f : Frame) (s : State) : (capture f s).drive = s.drive := rfl
@[simp] theorem capture_rxBuf (f : Frame) (s : State) : (capture f s).rxBuf = s.rxBuf := rfl
@[simp] theorem capture_rxLen (f : Frame) (s : State) : (capture f s).rxLen = s.rxLen := rfl
@[simp] theorem capture_txBuf (f : Frame) (s : State) : (capture f s).txBuf = s.txBuf := rfl
@[simp] theorem capture_txLen (f : Frame) (s : State) : (capture f s).txLen = s.txLen := rfl
@[simp] theorem capture_txIdx (f : Frame) (s : State) : (capture f s).txIdx = s.txIdx := rfl
@[simp] theorem capture_dlv (f : Frame) (s : State) : (capture f s).dlv = some ⟨f.src, f.cmd, f.payload⟩ := rfl

/-! `resetElements` -/

@[simp] theorem resetElements_params (s : State) : (resetElements s).params = s.params := rfl
@[simp] theorem resetElements_pending (s : State) : (resetElements s).pending = s.pending := rfl
@[simp] theorem resetElements_out (s : State) : (resetElements s).out = s.out := rfl
@[simp] theorem resetElements_resets (s : State) : (resetElements s).resets = s.resets + 1 := rfl
@[simp] theorem resetElements_eng (s : State) : (resetElements s).eng = .idle := rfl
@[simp] theorem resetElements_faultReason (s : State) : (resetElements s).faultReason = s.faultReason := rfl
@[simp] theorem resetElements_ownAddr (s : State) : (resetElements s).ownAddr = 0x00 := rfl
@[simp] theorem resetElements_ownSet (s : State) : (resetElements s).ownSet = false := rfl
@[simp] theorem resetElements_handlerSet (s : State) : (resetElements s).handlerSet = false := rfl
@[simp] theorem resetElements_drive (s : State) : (resetElements s).drive = false := rfl
@[simp] theorem resetElements_rxBuf (s : State) : (resetElements s).rxBuf = [] := rfl
@[simp] theorem resetElements_rxLen (s : State) : (resetElements s).rxLen = 0 := rfl
@[simp] theorem resetElements_txBuf (s : State) : (resetElements s).txBuf = [] := rfl
@[simp] theorem resetElements_txLen (s : State) : (resetElements s).txLen = 0 := rfl
@[simp] theorem resetElements_txIdx (s : State) : (resetElements s).txIdx = 0 := rfl
@[simp] theorem resetElements_dlv (s : State) : (resetElements s).dlv = none := rfl

/-! `beginStep` -/

@[simp] theorem beginStep_params (s : State) : (beginStep s).params = s.params := rfl
@[simp] theorem beginStep_pending (s : State) : (beginStep s).pending = s.pending := rfl
@[simp] theorem beginStep_out (s : State) : (beginStep s).out = [] := rfl
@[simp] theorem beginStep_resets (s : State) : (beginStep s).resets = s.resets := rfl
@[simp] theorem beginStep_eng (s : State) : (beginStep s).eng = s.eng := rfl
@[simp] theorem beginStep_faultReason (s : State) : (beginStep s).faultReason = s.faultReason := rfl
@[simp] theorem beginStep_ownAddr (s : State) : (beginStep s).ownAddr = s.ownAddr := rfl
@[simp] theorem beginStep_ownSet (s : State) : (beginStep s).ownSet = s.ownSet := rfl
@[simp] theorem beginStep_handlerSet (s : State) : (beginStep s).handlerSet = s.handlerSet := rfl
@[simp] theorem beginStep_drive (s : State) : (beginStep s).drive = s.drive := rfl
@[simp] theorem beginStep_rxBuf (s : State) : (beginStep s).rxBuf = s.rxBuf := rfl
@[simp] theorem beginStep_rxLen (s : State) : (beginStep s).rxLen = s.rxLen := rfl
@[simp] theorem beginStep_txBuf (s : State) : (beginStep s).txBuf = s.txBuf := rfl
@[simp] theorem beginStep_txLen (s : State) : (beginStep s).txLen = s.txLen := rfl
@[simp] theorem beginStep_txIdx (s : State) : (beginStep s).txIdx = s.txIdx := rfl
@[simp] theorem beginStep_dlv (s : State) : (beginStep s).dlv = s.dlv := rfl

/-! `present` -/

@[simp] theorem present_params (r : Record) (s : State) : (present r s).params = s.params := rfl
@[simp] theorem present_pending (r : Record) (s : State) : (present r s).pending = r :: s.pending := rfl
@[simp] theorem present_out (r : Record) (s : State) : (present r s).out = s.out := rfl
@[simp] theorem present_resets (r : Record) (s : State) : (present r s).resets = s.resets := rfl
@[simp] theorem present_eng (r : Record) (s : State) : (present r s).eng = s.eng := rfl
@[simp] theorem present_faultReason (r : Record) (s : State) : (present r s).faultReason = s.faultReason := rfl
@[simp] theorem present_ownAddr (r : Record) (s : State) : (present r s).ownAddr = s.ownAddr := rfl
@[simp] theorem present_ownSet (r : Record) (s : State) : (present r s).ownSet = s.ownSet := rfl
@[simp] theorem present_handlerSet (r : Record) (s : State) : (present r s).handlerSet = s.handlerSet := rfl
@[simp] theorem present_drive (r : Record) (s : State) : (present r s).drive = s.drive := rfl
@[simp] theorem present_rxBuf (r : Record) (s : State) : (present r s).rxBuf = s.rxBuf := rfl
@[simp] theorem present_rxLen (r : Record) (s : State) : (present r s).rxLen = s.rxLen := rfl
@[simp] theorem present_txBuf (r : Record) (s : State) : (present r s).txBuf = s.txBuf := rfl
@[simp] theorem present_txLen (r : Record) (s : State) : (present r s).txLen = s.txLen := rfl
@[simp] theorem present_txIdx (r : Record) (s : State) : (present r s).txIdx = s.txIdx := rfl
@[simp] theorem present_dlv (r : Record) (s : State) : (present r s).dlv = s.dlv := rfl

end Sys2Proof.Machine
end

