-- ==== Sys2Proof/Laws/Memory.lean ====
section
/-! SUPPORT. The buffers: reading after writing, the canonical form, and what a range access answers. -/

namespace Sys2Proof.Machine

@[simp] theorem Memory.read_nil (a : Nat) : Memory.read [] a = none := rfl

theorem Memory.read_write (m : Memory) (a : Nat) (v : Byte) (x : Nat) :
    (m.write a v).read x = if x = a then some v else m.read x := by
  induction m with
  | nil => simp [Memory.write, Memory.read]
  | cons c rest ih =>
    obtain ⟨b, w⟩ := c
    simp only [Memory.write]
    split
    · simp [Memory.read]
    · split
      · subst b; simp only [Memory.read]; split <;> rfl
      · simp only [Memory.read, ih]
        by_cases hx : x = b
        · subst hx; rw [if_pos rfl, if_pos rfl, if_neg (by omega)]
        · rw [if_neg hx, if_neg hx]

@[simp] theorem Memory.read_write_same (m : Memory) (a : Nat) (v : Byte) : (m.write a v).read a = some v := by
  simp [Memory.read_write]

theorem Memory.read_write_ne (m : Memory) {a x : Nat} (v : Byte) (h : x ≠ a) : (m.write a v).read x = m.read x := by
  simp [Memory.read_write, h]

theorem Memory.mem_write {m : Memory} {a : Nat} {v : Byte} {c : Host.Cell} (h : c ∈ m.write a v) :
    c = (a, v) ∨ c ∈ m := by
  induction m with
  | nil => simpa [Memory.write] using h
  | cons d rest ih =>
    obtain ⟨b, w⟩ := d
    simp only [Memory.write] at h
    split at h
    · simpa using h
    · split at h
      · rcases List.mem_cons.1 h with h | h
        · exact .inl h
        · exact .inr (List.mem_cons_of_mem _ h)
      · rcases List.mem_cons.1 h with h | h
        · exact .inr (by simp [h])
        · exact (ih h).imp id (List.mem_cons_of_mem _)

theorem Memory.write_wf {m : Memory} (h : m.wf) (a : Nat) (v : Byte) : (m.write a v).wf := by
  induction m with
  | nil => simp [Memory.write, Memory.wf]
  | cons d rest ih =>
    obtain ⟨b, w⟩ := d
    obtain ⟨hd, hr⟩ := List.pairwise_cons.1 h
    simp only [Memory.write]
    split
    next hlt =>
      refine List.pairwise_cons.2 ⟨fun c hc => ?_, h⟩
      rcases List.mem_cons.1 hc with rfl | hc
      · exact hlt
      · exact hlt.trans (hd c hc)
    next hge =>
      split
      next heq => exact List.pairwise_cons.2 ⟨fun c hc => by simpa [heq] using hd c hc, hr⟩
      next hne =>
        refine List.pairwise_cons.2 ⟨fun c hc => ?_, ih hr⟩
        rcases Memory.mem_write hc with rfl | hc
        · simp only; omega
        · exact hd c hc

theorem Memory.write_okFor {cap : Nat} {m : Memory} (h : m.okFor cap) {a : Nat} (ha : a < cap) (v : Byte) :
    (m.write a v).okFor cap :=
  ⟨Memory.write_wf h.1 a v, fun c hc => (Memory.mem_write hc).elim (fun e => by simpa [e] using ha) (h.2 c)⟩

theorem Memory.byteAt_of_read {m : Memory} {i : Nat} {b : Byte} (free : Nat → Byte) (h : m.read i = some b) :
    m.byteAt free i = b := by simp [Memory.byteAt, h]

/-- 20_memory R52: after `BufWrite(buf, a, v)`, index `a` holds `v`, and every other index holds what it held. -/
theorem Memory.byteAt_write (free : Nat → Byte) (m : Memory) (a : Nat) (v : Byte) (x : Nat) :
    (m.write a v).byteAt free x = if x = a then v else m.byteAt free x := by
  unfold Memory.byteAt
  rw [Memory.read_write]
  split <;> rfl

@[simp] theorem Memory.byteAt_nil (free : Nat → Byte) (a : Nat) : Memory.byteAt free [] a = free a := rfl

theorem bufRead_eq_ok {cap : Nat} {free : Nat → Byte} {m : Memory} {i : Nat} {b : Byte} :
    bufRead cap free m i = .ok b ↔ i < cap ∧ m.byteAt free i = b := by
  unfold bufRead
  split <;> simp_all

theorem bufWrite_eq_ok {cap : Nat} {m m' : Memory} {i : Nat} {v : Byte} :
    bufWrite cap m i v = .ok m' ↔ i < cap ∧ m' = m.write i v := by
  unfold bufWrite
  split
  · simp_all [eq_comm]
  · simp_all

/-- A list of bytes written from `i` on, in range: every byte lands at its index, and every other byte stays. -/
theorem bufWriteMany_spec {cap : Nat} (bs : List Byte) :
    ∀ (m : Memory) (i : Nat), i + bs.length ≤ cap →
      ∃ m', bufWriteMany cap m i bs = .ok m' ∧
        (∀ a, m'.read a = if i ≤ a ∧ a < i + bs.length then bs[a - i]? else m.read a) ∧
        (m.okFor cap → m'.okFor cap) := by
  induction bs with
  | nil => intro m i _; exact ⟨m, rfl, fun a => by rw [if_neg]; simp only [List.length_nil]; omega, id⟩
  | cons b bs ih =>
    intro m i h
    rw [List.length_cons] at h
    have hi : i < cap := by omega
    obtain ⟨m', he, hr, hok⟩ := ih (m.write i b) (i + 1) (by omega)
    refine ⟨m', ?_, fun a => ?_, fun hm => hok (Memory.write_okFor hm hi b)⟩
    · simp [bufWriteMany, bufWrite, hi, he]
    · rw [hr a, Memory.read_write, List.length_cons]
      by_cases ha : a = i
      · subst ha; rw [if_neg (by omega), if_pos rfl, if_pos (by omega)]; simp
      · by_cases hin : i + 1 ≤ a ∧ a < i + 1 + bs.length
        · rw [if_pos hin, if_pos (by omega), show a - i = (a - (i + 1)) + 1 by omega, List.getElem?_cons_succ]
        · rw [if_neg hin, if_neg ha, if_neg (by omega)]

/-- Bytes that stand in the buffer are read back in order. -/
theorem bufReadMany_of_bytes {cap : Nat} {free : Nat → Byte} {m : Memory} (bs : List Byte) :
    ∀ i, i + bs.length ≤ cap → (∀ j < bs.length, bs[j]? = some (m.byteAt free (i + j))) →
      bufReadMany cap free m i bs.length = .ok bs := by
  induction bs with
  | nil => intro i _ _; rfl
  | cons b bs ih =>
    intro i h hr
    rw [List.length_cons] at h hr
    have h0 : bufRead cap free m i = .ok b :=
      bufRead_eq_ok.2 ⟨by omega, by simpa [eq_comm] using hr 0 (by omega)⟩
    have h1 := ih (i + 1) (by omega) fun j hj => by
      have := hr (j + 1) (by omega)
      rwa [List.getElem?_cons_succ, show i + (j + 1) = i + 1 + j by omega] at this
    simp [bufReadMany, h0, h1]

/-- A range inside the capacity is read. -/
theorem bufReadMany_in_range {cap : Nat} {free : Nat → Byte} {m : Memory} (n i : Nat) (h : i + n ≤ cap) :
    ∃ bs, bs.length = n ∧ bufReadMany cap free m i n = .ok bs := by
  refine ⟨(List.range n).map fun j => m.byteAt free (i + j), by simp, ?_⟩
  have := bufReadMany_of_bytes (cap := cap) (free := free) (m := m) ((List.range n).map fun j => m.byteAt free (i + j)) i
    (by simpa using h) (fun j hj => by simp at hj; simp [hj])
  simpa using this

/-- What the free value is has no part in reading a written range (20_memory R52). -/
theorem bufReadMany_of_written {cap : Nat} {m : Memory} (free free' : Nat → Byte) (n : Nat) :
    ∀ i, (∀ j < n, (m.read (i + j)).isSome = true) → bufReadMany cap free m i n = bufReadMany cap free' m i n := by
  induction n with
  | zero => intro i _; rfl
  | succ n ih =>
    intro i hw
    obtain ⟨b, hb⟩ := Option.isSome_iff_exists.1 (hw 0 (by omega))
    have h0 : bufRead cap free m i = bufRead cap free' m i := by
      simp [bufRead, Memory.byteAt_of_read _ (show m.read i = some b by simpa using hb)]
    have h1 := ih (i + 1) fun j hj => by
      have := hw (j + 1) (by omega)
      rwa [show i + (j + 1) = i + 1 + j by omega] at this
    simp [bufReadMany, h0, h1]

/-- The candidate of a known accumulator (30_encoding R72). -/
theorem candidate_of_accumulator {s : State} {acc : List Byte} (h : AccumulatorIs s acc) :
    candidate s = .ok (s.params.marker :: acc) := by
  have hr := bufReadMany_of_bytes (cap := s.params.accCap) (free := Config.rxFree s.resets) (m := s.rxBuf) acc 0
    (by simpa using h.fits) (by simpa [State.rxAt] using h.bytes)
  simp [candidate, h.len, hr]

end Sys2Proof.Machine
end

