-- ==== Sys2Proof/Laws/Ops.lean ====
section
/-! SUPPORT. For each shared operation, one lemma that says everything it can answer. -/

namespace Sys2Proof.Machine

theorem bufCap_pos (p : Params) : 7 ≤ p.bufCap := by simp [Params.bufCap]

theorem accCap_eq (p : Params) : p.accCap = p.maxPayload + 6 := by simp [Params.accCap, Params.bufCap]

/-- A buffer that reads as the wire frame holds R71's fields at R71's offsets. -/
theorem wireFrameAt_of_reads {m : Memory} {p : Params} {src dst cmd : Byte} {payload : List Byte}
    (h : ∀ a < payload.length + 7, m.read a = (wireFrame p src dst cmd payload)[a]?) :
    WireFrameAt m p src dst cmd payload := by
  have hc : 5 + payload.length - (frameBody p src dst cmd payload).length = 0 := by
    rw [length_frameBody]; omega
  have he : 6 + payload.length - (frameBody p src dst cmd payload).length = 1 := by
    rw [length_frameBody]; omega
  refine ⟨by rw [h 0 (by omega)]; rfl, by rw [h 1 (by omega)]; rfl, by rw [h 2 (by omega)]; rfl,
    by rw [h 3 (by omega)]; rfl, by rw [h 4 (by omega)]; rfl, fun i hi => ?_, ?_, ?_⟩
  · rw [h _ (by omega), wireFrame, List.getElem?_append_left (by rw [length_frameBody]; omega),
      show 5 + i = i + 5 by omega]
    simp [frameBody]
  · rw [h _ (by omega), wireFrame, List.getElem?_append_right (by rw [length_frameBody]; omega), hc]
    simp only [List.getElem?_cons_zero, Option.some.injEq]
    apply BitVec.eq_of_toNat_eq
    rw [compute_toNat, byteSum_eq_sum]
    simp [frameBody, low8, version]
    congr 1; omega
  · rw [h _ (by omega), wireFrame, List.getElem?_append_right (by rw [length_frameBody]; omega), he]
    rfl

/-- `encode` past its size check, with the own address set (41_codec R112): the wire frame stands in `tx_buf`
from index 0, every other byte of it stays, and nothing but `tx_buf` and `tx_len` changes. -/
theorem encodeFitting_set {s : State} (hs : s.ownSet = true) (dst cmd : Byte) {payload : List Byte}
    (hfit : payload.length + 7 ≤ s.params.bufCap) :
    ∃ m, encodeFitting dst cmd payload s = .ok { s with txBuf := m, txLen := payload.length + 7 } ∧
      (∀ a, m.read a = if a < payload.length + 7 then (wireFrame s.params s.ownAddr dst cmd payload)[a]? else s.txBuf.read a) ∧
      (s.txBuf.okFor s.params.bufCap → m.okFor s.params.bufCap) := by
  obtain ⟨m, he, hr, hok⟩ := bufWriteMany_spec (cap := s.params.bufCap)
    (wireFrame s.params s.ownAddr dst cmd payload) s.txBuf 0 (by simpa using hfit)
  refine ⟨m, ?_, fun a => ?_, hok⟩
  · simp [encodeFitting, readOwnAddr, hs, he]
  · simpa using hr a

theorem encodeFitting_unset {s : State} (hs : s.ownSet = false) (dst cmd : Byte) (payload : List Byte) :
    encodeFitting dst cmd payload s = .ownAddrUnset := by
  simp [encodeFitting, readOwnAddr, hs]

/-- `start_tx` from a buffer whose first byte is `b` (43 R185). -/
theorem startTx_of_byte {s : State} {b : Byte} (mode : Engine) (h : s.txAt 0 = b) :
    startTx mode s = .next { s with
      drive := true, out := s.out ++ [.drive true, .sendByte b], txIdx := 1, eng := mode } := by
  have hb : bufRead s.params.bufCap (Config.txFree s.resets) s.txBuf 0 = .ok b :=
    bufRead_eq_ok.2 ⟨by have := bufCap_pos s.params; omega, h⟩
  simp [startTx, hb, emit, setDrive]

/-- Encode and start, with the own address set and a payload that fits (R172, R175). -/
theorem startEncoded_fitting {s : State} (hs : s.ownSet = true) (mode : Engine) (dst cmd : Byte) {payload : List Byte}
    (hfit : payload.length + 7 ≤ s.params.bufCap) :
    ∃ m, startEncoded mode s (encodeFitting dst cmd payload s) = .next { s with
        txBuf := m, txLen := payload.length + 7, txIdx := 1, drive := true, eng := mode,
        out := s.out ++ [.drive true, .sendByte s.params.marker] } ∧
      (∀ a, m.read a = if a < payload.length + 7 then (wireFrame s.params s.ownAddr dst cmd payload)[a]? else s.txBuf.read a) ∧
      (s.txBuf.okFor s.params.bufCap → m.okFor s.params.bufCap) := by
  obtain ⟨m, he, hr, hok⟩ := encodeFitting_set hs dst cmd hfit
  refine ⟨m, ?_, hr, hok⟩
  have h0 : m.read 0 = some s.params.marker := by rw [hr 0, if_pos (by omega)]; rfl
  rw [he, startEncoded, startTx_of_byte (s := { s with txBuf := m, txLen := payload.length + 7 }) mode (Memory.byteAt_of_read _ h0)]

theorem encodeFrame_tooLarge {s : State} (dst cmd : Byte) {payload : List Byte}
    (h : s.params.bufCap ≤ 6 + payload.length) : encodeFrame dst cmd payload s = .payloadTooLarge := by
  simp [encodeFrame, fixedOverhead, h]

theorem encodeFrame_fitting {s : State} (dst cmd : Byte) {payload : List Byte}
    (h : 6 + payload.length < s.params.bufCap) : encodeFrame dst cmd payload s = encodeFitting dst cmd payload s := by
  simp [encodeFrame, fixedOverhead, Nat.not_le.2 h]

theorem sendNext_in_range {s : State} (hi : s.txIdx < s.params.bufCap) :
    sendNext s = .next { s with out := s.out ++ [.sendByte (s.txAt s.txIdx)], txIdx := s.txIdx + 1 } := by
  have hb : bufRead s.params.bufCap (Config.txFree s.resets) s.txBuf s.txIdx = .ok (s.txAt s.txIdx) :=
    bufRead_eq_ok.2 ⟨hi, rfl⟩
  simp [sendNext, hb, emit]

/-- Everything `sendNext` can answer with a next state. -/
theorem sendNext_next {s t : State} (h : sendNext s = .next t) :
    t = { s with out := s.out ++ [.sendByte (s.txAt s.txIdx)], txIdx := s.txIdx + 1 } := by
  unfold sendNext at h
  split at h
  · cases h
  · next b hb => rw [State.txAt, (bufRead_eq_ok.1 hb).2]; simpa [emit] using h.symm

/-- Everything `enter_deliver` can answer (R179). -/
theorem enterDeliver_of_handler {s : State} {d : Delivery} (hh : s.handlerSet = true) (hd : s.dlv = some d) :
    enterDeliver s = .next { s with out := s.out ++ [.deliver d.src d.cmd d.payload], eng := .deliver } := by
  simp [enterDeliver, hh, hd, emit]

theorem enterDeliver_no_handler {s : State} (hh : s.handlerSet = false) :
    enterDeliver s = .next (raise .noHandler s) := by
  simp [enterDeliver, hh]

theorem enterDeliver_next {s t : State} (h : enterDeliver s = .next t) :
    (s.handlerSet = false ∧ t = raise .noHandler s) ∨
    (s.handlerSet = true ∧ ∃ d, s.dlv = some d ∧
      t = { s with out := s.out ++ [.deliver d.src d.cmd d.payload], eng := .deliver }) := by
  by_cases hh : s.handlerSet = true
  · cases hd : s.dlv with
    | none => simp [enterDeliver, hh, hd] at h
    | some d =>
      rw [enterDeliver_of_handler hh hd] at h
      injection h with h
      exact .inr ⟨hh, d, rfl, by rw [← h, ← hd]⟩
  · have hf : s.handlerSet = false := by simpa using hh
    rw [enterDeliver_no_handler hf] at h
    injection h with h
    exact .inl ⟨hf, h.symm⟩

/-- Everything `start_tx` can answer with a next state. -/
theorem startTx_next {mode : Engine} {s t : State} (h : startTx mode s = .next t) :
    t = { s with drive := true, out := s.out ++ [.drive true, .sendByte (s.txAt 0)], txIdx := 1, eng := mode } := by
  unfold startTx at h
  split at h
  · cases h
  · next b hb => rw [State.txAt, (bufRead_eq_ok.1 hb).2]; simpa [emit, setDrive] using h.symm

/-- Everything a data byte can do in `IDLE` (42 R141, R143). -/
theorem accumulate_next {b : Byte} {s t : State} (h : accumulate b s = .next t) :
    (s.rxLen = s.params.accCap ∧ t = { s with rxLen := 0 }) ∨
    (s.rxLen < s.params.accCap ∧ t = { s with rxBuf := s.rxBuf.write s.rxLen b, rxLen := s.rxLen + 1 }) := by
  unfold accumulate at h
  split at h
  · next hc => exact .inl ⟨hc, by simpa using h.symm⟩
  · split at h
    · cases h
    · next m hm =>
      obtain ⟨hlt, rfl⟩ := bufWrite_eq_ok.1 hm
      exact .inr ⟨hlt, by simpa using h.symm⟩

/-- A frame boundary with a known accumulator (R145): its dispatch, the cursor reset. -/
theorem frameBoundary_of_accumulator {s : State} {acc : List Byte} (h : AccumulatorIs s acc) :
    frameBoundary s = dispatch { s with rxLen := 0 } (judge s.params (readOwnAddr s) (s.params.marker :: acc)) := by
  simp [frameBoundary, candidate_of_accumulator h]

/-- The event `fetch` takes: those before it are input events held, it is one not held (00_scope R14). -/
theorem fetch_take {e : Engine} {i : Instr} {r : Record} (hr : decodeInput r = .ok i) (hi : held i e = false) (after : List Record) :
    ∀ before : List Record, (∀ q ∈ before, ∃ j, decodeInput q = .ok j ∧ held j e = true) →
      fetch e (before ++ r :: after) = .take i (before ++ after) := by
  intro before
  induction before with
  | nil => intro _; simp [fetch, hr, hi]
  | cons q qs ih =>
    intro h
    obtain ⟨j, hj, hh⟩ := h q (by simp)
    simp [fetch, hj, hh, ih fun x hx => h x (by simp [hx])]

end Sys2Proof.Machine
end

