-- ==== Sys2Proof/Laws/Exec.lean ====
section
/-! SUPPORT. What each meaning can answer with a next state, and what a step can do: one inversion lemma each. -/

namespace Sys2Proof.Machine

/-- A start of a frame, as every caller of `start_tx` leaves it (43 R172, R175, R185). -/
theorem startEncoded_fitting_next {mode : Engine} {dst cmd : Byte} {payload : List Byte} {s t : State}
    (hfit : payload.length + 7 ≤ s.params.bufCap)
    (h : startEncoded mode s (encodeFitting dst cmd payload s) = .next t) :
    (s.ownSet = false ∧ t = raise .ownAddrUnset s) ∨
    (s.ownSet = true ∧ ∃ m, t = { s with
        txBuf := m, txLen := payload.length + 7, txIdx := 1, drive := true, eng := mode,
        out := s.out ++ [.drive true, .sendByte s.params.marker] } ∧
      (∀ a, m.read a = if a < payload.length + 7 then (wireFrame s.params s.ownAddr dst cmd payload)[a]? else s.txBuf.read a) ∧
      (s.txBuf.okFor s.params.bufCap → m.okFor s.params.bufCap)) := by
  by_cases hs : s.ownSet = true
  · obtain ⟨m, he, hr, hok⟩ := startEncoded_fitting hs mode dst cmd hfit
    rw [he] at h
    injection h with h
    exact .inr ⟨hs, m, h.symm, hr, hok⟩
  · have hf : s.ownSet = false := by simpa using hs
    rw [encodeFitting_unset hf, startEncoded] at h
    injection h with h
    exact .inl ⟨hf, h.symm⟩

/-- Everything a transmit request can do (R171 to R173). -/
theorem transmitRequest_next {dst cmd : Byte} {payload : List Byte} {s t : State}
    (h : transmitRequest dst cmd payload s = .next t) :
    (s.eng ≠ .idle ∧ t = s) ∨
    (s.eng = .idle ∧ s.params.bufCap ≤ 6 + payload.length ∧ t = emit (.txResult .payloadTooLarge) s) ∨
    (s.eng = .idle ∧ s.ownSet = false ∧ t = raise .ownAddrUnset s) ∨
    (s.eng = .idle ∧ s.ownSet = true ∧ 6 + payload.length < s.params.bufCap ∧ ∃ m, t = { s with
        txBuf := m, txLen := payload.length + 7, txIdx := 1, drive := true, eng := .txApp,
        out := s.out ++ [.drive true, .sendByte s.params.marker] } ∧
      (∀ a, m.read a = if a < payload.length + 7 then (wireFrame s.params s.ownAddr dst cmd payload)[a]? else s.txBuf.read a) ∧
      (s.txBuf.okFor s.params.bufCap → m.okFor s.params.bufCap)) := by
  unfold transmitRequest at h
  cases he : s.eng with
  | idle =>
    rw [he] at h
    by_cases hfit : s.params.bufCap ≤ 6 + payload.length
    · simp only [encodeFrame_tooLarge _ _ hfit, startEncoded] at h
      injection h with h
      exact .inr (.inl ⟨rfl, hfit, h.symm⟩)
    · have hlt := Nat.not_le.1 hfit
      simp only [encodeFrame_fitting _ _ hlt] at h
      rcases startEncoded_fitting_next (by omega) h with ⟨hs, rfl⟩ | ⟨hs, m, rfl, hm⟩
      · exact .inr (.inr (.inl ⟨rfl, hs, rfl⟩))
      · exact .inr (.inr (.inr ⟨rfl, hs, hlt, m, rfl, hm⟩))
  | _ => rw [he] at h; simp only [hold] at h; injection h with h; exact .inl ⟨by simp, h.symm⟩

/-- Everything a `TX_DONE` can do (R176 to R178). -/
theorem execTxDone_next {s t : State} (h : execTxDone s = .next t) :
    (¬ Transmitting s.eng ∧ t = s) ∨
    (Transmitting s.eng ∧ s.txIdx < s.txLen ∧
      t = { s with out := s.out ++ [.sendByte (s.txAt s.txIdx)], txIdx := s.txIdx + 1 }) ∨
    (s.eng = .txApp ∧ s.txLen ≤ s.txIdx ∧
      t = { s with drive := false, eng := .idle, out := s.out ++ [.drive false, .txResult .ok] }) ∨
    (s.eng = .txAck ∧ s.txLen ≤ s.txIdx ∧ s.handlerSet = false ∧
      t = { s with drive := false, faultReason := .noHandler, eng := .fault, out := s.out ++ [.drive false] }) ∨
    (s.eng = .txAck ∧ s.txLen ≤ s.txIdx ∧ s.handlerSet = true ∧ ∃ d, s.dlv = some d ∧
      t = { s with drive := false, eng := .deliver, out := s.out ++ [.drive false, .deliver d.src d.cmd d.payload] }) := by
  unfold execTxDone at h
  cases he : s.eng with
  | txApp =>
    simp only [he] at h
    split at h
    · next hlt =>
      exact .inr (.inl ⟨.inl rfl, hlt, by rw [sendNext_next h]; simp [he]⟩)
    · next hge =>
      injection h with h
      exact .inr (.inr (.inl ⟨rfl, by omega, by simp [← h, emit, setDrive]⟩))
  | txAck =>
    simp only [he] at h
    split at h
    · next hlt =>
      exact .inr (.inl ⟨.inr rfl, hlt, by rw [sendNext_next h]; simp [he]⟩)
    · next hge =>
      rcases enterDeliver_next h with ⟨hh, rfl⟩ | ⟨hh, d, hd, rfl⟩
      · exact .inr (.inr (.inr (.inl ⟨rfl, by omega, hh, by simp [raise, setDrive, emit]⟩)))
      · exact .inr (.inr (.inr (.inr ⟨rfl, by omega, hh, d, hd, by simp [setDrive, emit]⟩)))
  | _ => simp only [he, drop, hold] at h; injection h with h; exact .inl ⟨by simp, h.symm⟩

/-- Everything a frame boundary can do (42 R144 to R151), with the candidate and its verdict. -/
theorem frameBoundary_next {s t : State} (h : frameBoundary s = .next t) :
    t = { s with rxLen := 0 } ∨
    t = { s with rxLen := 0, faultReason := .ownAddrUnset, eng := .fault } ∨
    (∃ d, s.ownSet = true ∧ s.handlerSet = false ∧ t = { s with rxLen := 0, dlv := some d, faultReason := .noHandler, eng := .fault }) ∨
    (∃ d, s.ownSet = true ∧ s.handlerSet = true ∧ t = { s with
      rxLen := 0, dlv := some d, out := s.out ++ [.deliver d.src d.cmd d.payload], eng := .deliver }) ∨
    (∃ d m, s.ownSet = true ∧ t = { s with
        rxLen := 0, dlv := some d, txBuf := m, txLen := 7, txIdx := 1, drive := true, eng := .txAck,
        out := s.out ++ [.drive true, .sendByte s.params.marker] } ∧
      (∀ a, m.read a = if a < 7 then (wireFrame s.params s.ownAddr d.src s.params.ackCode [])[a]? else s.txBuf.read a) ∧
      (s.txBuf.okFor s.params.bufCap → m.okFor s.params.bufCap)) := by
  unfold frameBoundary at h
  split at h
  · cases h
  next F hF =>
  cases hv : judge s.params (readOwnAddr s) F with
  | silent o => rw [hv, dispatch] at h; injection h with h; exact .inl h.symm
  | ownAddrUnset => rw [hv, dispatch] at h; injection h with h; exact .inr (.inl h.symm)
  | ack f =>
    rw [hv, dispatch, execFrameAck] at h
    split at h
    · injection h with h; exact .inl h.symm
    · cases h
  | noack f =>
    rw [hv, dispatch, execFrameNoack] at h
    split at h
    · next hsel =>
      simp only [frameSelected, decide_eq_true_eq] at hsel
      rcases enterDeliver_next h with ⟨hh, rfl⟩ | ⟨hh, d, hd, rfl⟩
      · exact .inr (.inr (.inl ⟨_, hsel.2.1, hh, rfl⟩))
      · injection hd with hd
        subst hd
        exact .inr (.inr (.inr (.inl ⟨_, hsel.2.1, hh, rfl⟩)))
    · cases h
  | addressed f =>
    rw [hv, dispatch, execFrameAddressed] at h
    split at h
    · next hsel =>
      simp only [frameSelected, decide_eq_true_eq] at hsel
      unfold transmitAck at h
      rcases startEncoded_fitting_next (s := capture f { s with rxLen := 0 }) (payload := [])
        (by simpa using bufCap_pos s.params) h with ⟨hs, _⟩ | ⟨hs, m, ht, hr, hok⟩
      · simp [capture, hsel.2.1] at hs
      · exact .inr (.inr (.inr (.inr ⟨⟨f.src, f.cmd, f.payload⟩, m, hsel.2.1, ht, hr, hok⟩)))
    · cases h

/-- A verdict that selects a frame row comes from a decoded frame addressed to this node and of the row's class. -/
theorem judge_selects {p : Params} {own : Option Byte} {F : List Byte} {v : Verdict} (h : judge p own F = v) :
    (∀ f, v = .ack f → decodeFrame F = .ok f ∧ own = some f.dst ∧ cmdClass p f.cmd = .ack) ∧
    (∀ f, v = .noack f → decodeFrame F = .ok f ∧ own = some f.dst ∧ cmdClass p f.cmd = .noack) ∧
    (∀ f, v = .addressed f → decodeFrame F = .ok f ∧ own = some f.dst ∧ cmdClass p f.cmd = .addressed) := by
  subst h
  unfold judge
  split
  · simp
  · simp
  · next g hg =>
    split
    · simp
    · next a =>
      split
      · next hd =>
        split <;> next hc => simp [hg, hd, hc]
      · simp

/-- Everything a received byte can do (42 R140 to R154). -/
theorem execRxByte_next {b : Byte} {s t : State} (h : execRxByte b s = .next t) :
    (s.eng ≠ .idle ∧ t = s) ∨
    (s.eng = .idle ∧ b = s.params.marker ∧ frameBoundary s = .next t) ∨
    (s.eng = .idle ∧ b ≠ s.params.marker ∧ accumulate b s = .next t) := by
  unfold execRxByte execRxByteTerminator execRxByteData at h
  by_cases hb : b = s.params.marker
  · simp only [hb, if_true] at h
    cases he : s.eng with
    | idle => rw [he] at h; exact .inr (.inl ⟨rfl, hb, h⟩)
    | _ => rw [he] at h; injection h with h; exact .inl ⟨by simp, h.symm⟩
  · simp only [hb, if_false] at h
    cases he : s.eng with
    | idle => rw [he] at h; exact .inr (.inr ⟨rfl, hb, h⟩)
    | _ => rw [he] at h; injection h with h; exact .inl ⟨by simp, h.symm⟩

/-- What `fetch` takes is an input event of the presented records, and the engine state does not hold it. -/
theorem fetch_take_inv {e : Engine} {i : Instr} {rest : List Record} :
    ∀ {rs : List Record}, fetch e rs = .take i rest → held i e = false ∧ ∃ r ∈ rs, decodeInput r = .ok i := by
  intro rs
  induction rs generalizing rest with
  | nil => intro h; cases h
  | cons r rs ih =>
    intro h
    unfold fetch at h
    split at h
    · cases h
    · next j hj =>
      split at h
      · split at h
        · cases h
        · cases h
        · next k rest' hk =>
          injection h with h1 h2
          subst h1
          obtain ⟨hh, q, hq, hd⟩ := ih hk
          exact ⟨hh, q, List.mem_cons_of_mem _ hq, hd⟩
      · next hf =>
        injection h with h1 h2
        subst h1
        exact ⟨by simpa using hf, r, by simp, hj⟩

/-- What the block decodes is an input event (30_encoding R85). -/
theorem decodeInput_isInput {r : Record} {i : Instr} (h : decodeInput r = .ok i) : isInput i = true := by
  unfold decodeInput at h
  split at h
  · cases h
  next tag xs =>
  split at h
  · next hle =>
    have ht : tag = 0 ∨ tag = 1 ∨ tag = 2 ∨ tag = 3 ∨ tag = 4 ∨ tag = 5 ∨ tag = 6 ∨ tag = 7 := by omega
    unfold decodeRecord at h
    split at h
    · cases h
    · next j hp =>
      injection h with h
      subst h
      rcases ht with rfl | rfl | rfl | rfl | rfl | rfl | rfl | rfl <;> simp only [decodePrefix] at hp
      · injection hp with hp; injection hp with h1 _; subst h1; rfl
      · obtain ⟨_, rfl, _⟩ := takeOne_eq_ok.1 hp; rfl
      · injection hp with hp; injection hp with h1 _; subst h1; rfl
      · obtain ⟨_, rfl, _⟩ := takeOne_eq_ok.1 hp; rfl
      · injection hp with hp; injection hp with h1 _; subst h1; rfl
      · obtain ⟨_, _, _, rfl, _⟩ := takeMessage_eq_ok.1 hp; rfl
      · obtain ⟨_, _, rfl, _⟩ := takeTwo_eq_ok.1 hp; rfl
      · injection hp with hp; injection hp with h1 _; subst h1; rfl
    · cases h
  · split at h <;> cases h

theorem transmitRequest_held {dst cmd : Byte} {payload : List Byte} {s : State} (h : s.eng ≠ .idle) :
    transmitRequest dst cmd payload s = .next s := by
  unfold transmitRequest
  cases he : s.eng with
  | idle => exact absurd he h
  | _ => rfl

theorem execRxByte_held {b : Byte} {s : State} (h : s.eng = .deliver ∨ s.eng = .fault) : execRxByte b s = .next s := by
  unfold execRxByte execRxByteTerminator execRxByteData
  rcases h with h | h <;> rw [h] <;> split <;> rfl

/-- A held event changes nothing (00_scope R14, 43 R170). -/
theorem exec_of_held {i : Instr} {s : State} (hi : isInput i = true) (h : held i s.eng = true) : exec i s = .next s := by
  cases i with
  | rxByte b => exact execRxByte_held (by simpa [held] using h)
  | transmit dst cmd payload => exact transmitRequest_held (by simpa [held] using h)
  | transmitError dst code => exact transmitRequest_held (by simpa [held] using h)
  | reset => cases h
  | txDone =>
    have he : s.eng = .fault := by simpa [held] using h
    simp only [exec, execTxDone, he, hold]
  | configure a =>
    have he : s.eng = .fault := by simpa [held] using h
    simp only [exec, execConfigure, he, hold]
  | setHandler =>
    have he : s.eng = .fault := by simpa [held] using h
    simp only [exec, execSetHandler, he, hold]
  | deliverAccept =>
    have he : s.eng = .fault := by simpa [held] using h
    simp only [exec, execDeliverAccept, he, hold]
  | _ => cases hi

/-- Everything an input event can do with a next state, by event. -/
theorem exec_input_next {i : Instr} {s t : State} (hi : isInput i = true) (h : exec i s = .next t) :
    (i = .reset ∧ t = resetElements (if s.drive then emit (.drive false) s else s)) ∨
    (∃ b, i = .rxByte b ∧ execRxByte b s = .next t) ∨
    (i = .txDone ∧ execTxDone s = .next t) ∨
    (∃ a, i = .configure a ∧ ((s.eng ≠ .fault ∧ t = setOwnAddr a s) ∨ (s.eng = .fault ∧ t = s))) ∨
    (i = .setHandler ∧ ((s.eng ≠ .fault ∧ t = setHandlerFlag s) ∨ (s.eng = .fault ∧ t = s))) ∨
    (isRequest i = true ∧ ∃ dst cmd payload, transmitRequest dst cmd payload s = .next t) ∨
    (i = .deliverAccept ∧
      ((s.eng = .deliver ∧ t = { s with dlv := none, eng := .idle }) ∨ (s.eng ≠ .deliver ∧ t = s))) := by
  cases i with
  | reset => injection h with h; exact .inl ⟨rfl, h.symm⟩
  | rxByte b => exact .inr (.inl ⟨b, rfl, h⟩)
  | txDone => exact .inr (.inr (.inl ⟨rfl, h⟩))
  | configure a =>
    refine .inr (.inr (.inr (.inl ⟨a, rfl, ?_⟩)))
    unfold exec execConfigure at h
    cases he : s.eng <;> simp only [he, hold] at h <;> injection h with h <;> simp [h]
  | setHandler =>
    refine .inr (.inr (.inr (.inr (.inl ⟨rfl, ?_⟩))))
    unfold exec execSetHandler at h
    cases he : s.eng <;> simp only [he, hold] at h <;> injection h with h <;> simp [h]
  | transmit dst cmd payload => exact .inr (.inr (.inr (.inr (.inr (.inl ⟨rfl, dst, cmd, payload, h⟩)))))
  | transmitError dst code => exact .inr (.inr (.inr (.inr (.inr (.inl ⟨rfl, dst, code, [], h⟩)))))
  | deliverAccept =>
    refine .inr (.inr (.inr (.inr (.inr (.inr ⟨rfl, ?_⟩)))))
    unfold exec execDeliverAccept at h
    cases he : s.eng <;> simp only [he, hold, drop] at h <;> injection h with h <;> simp [h]
  | _ => cases hi

/-- Everything a step can do with a next state. -/
theorem step_next {s t : State} (h : step s = .next t) :
    (fetch s.eng s.pending = .waits ∧ t = { s with out := [] }) ∨
    ∃ i rest, fetch s.eng s.pending = .take i rest ∧ isInput i = true ∧ held i s.eng = false ∧
      exec i { s with pending := rest, out := [] } = .next t := by
  unfold step at h
  split at h
  · next hw => injection h with h; exact .inl ⟨hw, h.symm⟩
  · cases h
  · next i rest hf =>
    obtain ⟨hh, r, _, hd⟩ := fetch_take_inv hf
    exact .inr ⟨i, rest, hf, decodeInput_isInput hd, hh, h⟩

/-- Requests and results along one step that takes no `RESET` and does not fault: what is accepted or in progress before it is
answered in it or in progress after it (43 R191). -/
theorem step_answers {s t : State} (h : step s = .next t) (hr : taken s ≠ some .reset) (hf : t.eng ≠ .fault) :
    (takesRequest s).toNat + (decide (s.eng = .txApp)).toNat =
      t.out.countP Output.isResult + (decide (t.eng = .txApp)).toNat := by
  rcases step_next h with ⟨hw, rfl⟩ | ⟨i, rest, hfe, hi, hh, hx⟩
  · simp [takesRequest, taken, hw]
  have ht : takesRequest s = isRequest i := by simp [takesRequest, taken, hfe]
  rw [ht]
  rcases exec_input_next hi hx with ⟨rfl, _⟩ | ⟨b, rfl, h⟩ | ⟨rfl, h⟩ | ⟨a, rfl, ⟨_, rfl⟩ | ⟨_, rfl⟩⟩ |
    ⟨rfl, ⟨_, rfl⟩ | ⟨_, rfl⟩⟩ | ⟨hq, _, _, _, h⟩ | ⟨rfl, ⟨he, rfl⟩ | ⟨_, rfl⟩⟩
  · exact absurd (by simp [taken, hfe]) hr
  · rcases execRxByte_next h with ⟨_, rfl⟩ | ⟨he, _, h⟩ | ⟨_, _, h⟩
    · simp [isRequest]
    · simp only at he
      rcases frameBoundary_next h with rfl | rfl | ⟨_, _, _, rfl⟩ | ⟨_, _, _, rfl⟩ | ⟨_, _, _, rfl, _⟩ <;>
        simp [isRequest, he, Output.isResult]
    · rcases accumulate_next h with ⟨_, rfl⟩ | ⟨_, rfl⟩ <;> simp [isRequest]
  · rcases execTxDone_next h with ⟨_, rfl⟩ | ⟨_, _, rfl⟩ | ⟨he, _, rfl⟩ | ⟨he, _, _, rfl⟩ | ⟨he, _, _, _, _, rfl⟩ <;>
      simp only [] at * <;> simp [isRequest, Output.isResult, *]
  · simp [isRequest]; congr
  · simp [isRequest]
  · simp [isRequest]; congr
  · simp [isRequest]
  · have hne : s.eng = .idle := by
      cases i <;> simp [isRequest] at hq <;> simpa [held] using hh
    rw [hq]
    rcases transmitRequest_next h with ⟨hne', _⟩ | ⟨_, _, rfl⟩ | ⟨_, _, rfl⟩ | ⟨_, _, _, _, rfl, _⟩
    · exact absurd hne hne'
    · simp [hne, Output.isResult]
    · exact absurd rfl hf
    · simp [hne, Output.isResult]
  · simp only at he; simp [isRequest, he]
  · simp [isRequest]

end Sys2Proof.Machine
end

