-- ==== Sys2Proof/Laws/PerInstr.lean ====
section
/-! SUPPORT. What holds of every instruction as syntax, one lemma for each constructor. -/

namespace Sys2Proof.Laws.RecordTag

/-- The tag of each event row (spec/30_encoding.md R80, R81). A byte, frame or internal row has none. -/
def eventTag : Instr → Option Nat
  | .rxByteTerminator => none
  | .rxByteData _ => none
  | .frameAck _ => none
  | .frameNoack _ => none
  | .frameAddressed _ => none
  | .transmitAck _ => none
  | .reset => some 0x00
  | .rxByte _ => some 0x01
  | .txDone => some 0x02
  | .configure _ => some 0x03
  | .setHandler => some 0x04
  | .transmit _ _ _ => some 0x05
  | .transmitError _ _ => some 0x06
  | .deliverAccept => some 0x07
  | .drive _ => some 0x81
  | .sendByte _ => some 0x82
  | .deliver _ _ _ => some 0x83
  | .txResult _ => some 0x84

/-- An instruction is encoded as an event record exactly when its row has a tag, and the record begins with it. -/
def Statement (i : Instr) : Prop :=
  ∀ p : Params, eventTag i = match encode p i with
    | .event r => r.head?
    | _ => none

theorem rxByteTerminator : Statement .rxByteTerminator := fun _ => rfl
theorem rxByteData (b : Byte) : Statement (.rxByteData b) := fun _ => rfl
theorem frameAck (f : Frame) : Statement (.frameAck f) := fun _ => rfl
theorem frameNoack (f : Frame) : Statement (.frameNoack f) := fun _ => rfl
theorem frameAddressed (f : Frame) : Statement (.frameAddressed f) := fun _ => rfl
theorem transmitAck (d : Byte) : Statement (.transmitAck d) := fun _ => rfl
theorem reset : Statement .reset := fun _ => rfl
theorem rxByte (b : Byte) : Statement (.rxByte b) := fun _ => rfl
theorem txDone : Statement .txDone := fun _ => rfl
theorem configure (a : Byte) : Statement (.configure a) := fun _ => rfl
theorem setHandler : Statement .setHandler := fun _ => rfl
theorem transmit (dst cmd : Byte) (payload : List Byte) : Statement (.transmit dst cmd payload) := fun _ => rfl
theorem transmitError (dst code : Byte) : Statement (.transmitError dst code) := fun _ => rfl
theorem deliverAccept : Statement .deliverAccept := fun _ => rfl
theorem drive (d : Bool) : Statement (.drive d) := fun _ => rfl
theorem sendByte (b : Byte) : Statement (.sendByte b) := fun _ => rfl
theorem deliver (src cmd : Byte) (payload : List Byte) : Statement (.deliver src cmd payload) := fun _ => rfl
theorem txResult (r : TxResult) : Statement (.txResult r) := fun _ => rfl

end Sys2Proof.Laws.RecordTag
end

