-- ==== Sys2Proof/Tests/Slice0.lean ====
section
/-! SUPPORT. The model's own tests: ill-formed terms, decoding of words written out from spec/30_encoding.md, a few
vectors of spec/95_test_vectors.md (each named by its id), and for each statement with hypotheses what meets them. -/

namespace Sys2Proof.Tests

open Sys2Proof.Machine

/-! ### Small states -/

/-- The example set `EX` (00_scope R9). -/
def ex : Params := ⟨0x7E, 0x06, 0xFF, 9⟩

/-- A buffer that holds these bytes from an index on. -/
def listed : Nat → List Byte → Memory
  | _, [] => []
  | i, b :: bs => (i, b) :: listed (i + 1) bs

/-- The start state of 95_test_vectors L2.4 and L2.5. -/
def base : State := { State.reset with params := ex, ownAddr := 0x02, ownSet := true, handlerSet := true }

/-- The same with no own address. -/
def noAddr : State := { base with ownSet := false }

/-- The same with no handler. -/
def noHandler : State := { base with handlerSet := false }

/-- A state whose accumulator is these bytes. -/
def heard (s : State) (acc : List Byte) : State := { s with rxBuf := listed 0 acc, rxLen := acc.length }

/-- A state in the middle of a seven-byte frame, `idx` bytes sent or outstanding. -/
def sending (s : State) (mode : Engine) (idx : Nat) : State :=
  { s with eng := mode, drive := true, txBuf := listed 0 [0x7E, 0x05, 0x02, 0x01, 0x06, 0x8C, 0x7E], txLen := 7, txIdx := idx }

/-- A state with a captured delivery. -/
def captured (s : State) : State := { s with dlv := some ⟨0x05, 0x10, [0xAA]⟩ }

/-- A state that is offering a delivery. -/
def offering : State := { captured base with eng := .deliver }

/-- A faulted state. -/
def faulted : State := { base with eng := .fault }

/-- A state with these records presented. -/
def asked (s : State) (rs : List Record) : State := { s with pending := rs }

/-- A test of the next state; false for a fault and a refusal. -/
def gives (r : Result) (p : State → Bool) : Bool :=
  match r with
  | .next t => p t
  | _ => false

/-- Candidates of 95_test_vectors without their start marker: addressed, no-ACK, ACK, for another node, wrong sum. -/
def accAddressed : List Byte := [0x02, 0x05, 0x01, 0x10, 0x96]
def accNoack : List Byte := [0x02, 0x05, 0x01, 0xFF, 0x11, 0x96]
def accAck : List Byte := [0x02, 0x05, 0x01, 0x06, 0x8C]
def accElsewhere : List Byte := [0x09, 0x05, 0x01, 0x10, 0x01, 0x9E]
def accMismatch : List Byte := [0x02, 0x05, 0x01, 0x10, 0x97]

/-- A payload of `MAX_PAYLOAD` bytes (EN5), and one byte more (EN6). -/
def longest : List Byte := [0x01, 0x02, 0x03, 0x04, 0x05, 0x06, 0x07, 0x08, 0x09]
def tooLong : List Byte := longest ++ [0x0A]

/-! ### Well-formedness: an ill-formed term for each check -/

theorem test_wf_data_marker : Instr.wellFormed ex (.rxByteData 0x7E) = false := by decide
theorem test_wf_ack_class : Instr.wellFormed ex (.frameAck ⟨0x02, 0x05, 0x10, []⟩) = false := by decide
theorem test_wf_noack_class : Instr.wellFormed ex (.frameNoack ⟨0x02, 0x05, 0x06, []⟩) = false := by decide
theorem test_wf_addressed_class : Instr.wellFormed ex (.frameAddressed ⟨0x02, 0x05, 0xFF, []⟩) = false := by decide
theorem test_wf_ack_length : Instr.wellFormed ex (.frameAck ⟨0x02, 0x05, 0x06, tooLong ++ [0x0B]⟩) = false := by decide
theorem test_wf_noack_length : Instr.wellFormed ex (.frameNoack ⟨0x02, 0x05, 0xFF, tooLong ++ [0x0B]⟩) = false := by decide
theorem test_wf_addressed_length : Instr.wellFormed ex (.frameAddressed ⟨0x02, 0x05, 0x10, tooLong ++ [0x0B]⟩) = false := by decide

/-- 30_encoding R73, DE7: a received payload may be one byte longer than `MAX_PAYLOAD`. -/
theorem test_wf_addressed_longest : Instr.wellFormed ex (.frameAddressed ⟨0x02, 0x09, 0x10, tooLong⟩) = true := by decide

/-! ### Decoding: words written out from 30_encoding R71 to R81 -/

theorem test_decode_wireBytes :
    decode ex (.wireByte 0x7E) = .ok .rxByteTerminator ∧ decode ex (.wireByte 0x7F) = .ok (.rxByteData 0x7F) := by decide

theorem test_decode_frames :
    decode ex (.frameCmd [0x7E, 0x02, 0x05, 0x01, 0x06, 0x8C]) = .ok (.frameAck ⟨0x02, 0x05, 0x06, []⟩) ∧
    decode ex (.frameCmd [0x7E, 0x02, 0x05, 0x01, 0xFF, 0x11, 0x96]) = .ok (.frameNoack ⟨0x02, 0x05, 0xFF, [0x11]⟩) ∧
    decode ex (.frameCmd [0x7E, 0x05, 0x02, 0x01, 0x10, 0xAA, 0xBB, 0xFB]) =
      .ok (.frameAddressed ⟨0x05, 0x02, 0x10, [0xAA, 0xBB]⟩) := by decide

theorem test_decode_internal : decode ex (.internal 0x05) = .ok (.transmitAck 0x05) := by decide

theorem test_decode_inputs :
    decodeInput [0x00] = .ok .reset ∧ decodeInput [0x01, 0xAB] = .ok (.rxByte 0xAB) ∧
    decodeInput [0x02] = .ok .txDone ∧ decodeInput [0x03, 0x02] = .ok (.configure 0x02) ∧
    decodeInput [0x04] = .ok .setHandler ∧
    decodeInput [0x05, 0x09, 0x42, 3, 0x01, 0x02, 0x03] = .ok (.transmit 0x09 0x42 [0x01, 0x02, 0x03]) ∧
    decodeInput [0x06, 0x05, 0x33] = .ok (.transmitError 0x05 0x33) ∧
    decodeInput [0x07] = .ok .deliverAccept := by decide

theorem test_decode_outputs :
    decodeRecord [0x81, 1] = .ok (.drive true) ∧ decodeRecord [0x81, 0] = .ok (.drive false) ∧
    decodeRecord [0x82, 0x7E] = .ok (.sendByte 0x7E) ∧
    decodeRecord [0x83, 0x05, 0xFF, 1, 0x11] = .ok (.deliver 0x05 0xFF [0x11]) ∧
    decodeRecord [0x84, 0] = .ok (.txResult .ok) ∧ decodeRecord [0x84, 1] = .ok (.txResult .payloadTooLarge) := by decide

theorem test_decode_rejects :
    decodeInput [] = .error .emptyRecord ∧ decodeInput [0x08] = .error (.unknownTag 0x08) ∧
    decodeInput [0x81, 1] = .error (.outputTag 0x81) ∧ decodeInput [0x01] = .error (.missingField 0x01) ∧
    decodeInput [0x01, 256] = .error (.notAByte 256) ∧ decodeInput [0x02, 0] = .error .trailingItems ∧
    decodeRecord [0x81, 2] = .error (.notABit 2) ∧ decodeRecord [0x84, 2] = .error (.notAResultCode 2) ∧
    decode ex (.frameCmd [0x7E, 0x02, 0x05, 0x01, 0x10]) = .error .candidateTruncated ∧
    decode ex (.frameCmd [0x7E, 0x02, 0x05, 0x01, 0x10, 0x97]) = .error .candidateChecksum := by decide

theorem test_decode_table :
    decodeTableWord 8 0x00 = some .reset ∧ decodeTableWord 8 0x05 = some (.transmit 0x00 0x00 []) ∧
    decodeTableWord 32 0x02420905 = some (.transmit 0x09 0x42 [0x00, 0x00]) ∧
    decodeTableWord 8 0x84 = some (.txResult .ok) ∧ decodeTableWord 8 0x08 = none := by decide

/-- A word placed for the next step is fetched and run. -/
theorem test_fetchWord :
    gives (step (base.withFetchWord 16 0x0903)) (fun t => t.ownAddr == 0x09 && t.pending.isEmpty) = true ∧
    gives (step (State.reset.withFetchWord 8 0x02)) (fun t => t.pending.isEmpty) = true := by decide

/-! ### Vectors of 95_test_vectors -/

/-- CK2, CK3, CK5. -/
theorem test_checksum :
    compute [0xFF, 0x01] = 0x00 ∧ compute [0x80, 0x80, 0x80] = 0x80 ∧
    compute [0x7E, 0x05, 0x02, 0x01, 0x10, 0xAA, 0xBB] = 0xFB := by decide

/-- CK8, CK9. -/
theorem test_checksum_verify :
    verify [0x7E, 0x02, 0x05, 0x01, 0x10, 0xAB, 0xBB] 0xFB = false ∧
    verify [0x7E, 0x02, 0x05, 0x01, 0x10, 0xBB, 0xAA] 0xFB = true := by decide

/-- DE6, DE9: the version is ignored; the length test comes first. -/
theorem test_decodeFrame :
    decodeFrame [0x7E, 0x02, 0x05, 0x09, 0x10, 0x9E] = .ok ⟨0x02, 0x05, 0x10, []⟩ ∧
    decodeFrame [0x7E, 0x01, 0x02, 0x03] = .error .truncated := by decide

/-- RX1, RX11: append; the byte that overflows is not stored. -/
theorem test_rxByteData_append :
    gives (exec (.rxByteData 0x05) base) (fun t => t.rxLen == 1 && t.rxBuf.read 0 == some 0x05) = true := by decide
theorem test_rxByteData_overflow :
    gives (exec (.rxByteData 0x10) (heard base (longest ++ [0x0A, 0x0B, 0x0C, 0x0D, 0x0E, 0x0F])))
      (fun t => t.rxLen == 0 && t.rxBuf.read 14 == some 0x0F && (t.rxBuf.read 15).isNone) = true := by decide

/-- RX3: the last terminator of an addressed frame. -/
theorem test_rxByte_addressed :
    gives (exec (.rxByte 0x7E) (heard base accAddressed)) (fun t =>
      t.out == [.drive true, .sendByte 0x7E] && t.eng == .txAck && t.txLen == 7 && t.txIdx == 1 && t.rxLen == 0 &&
      t.txBuf == listed 0 [0x7E, 0x05, 0x02, 0x01, 0x06, 0x8C, 0x7E] && t.dlv == some ⟨0x05, 0x10, []⟩) = true := by
  decide

/-- RX14: the checksum equals `MARKER`, and the frame is accepted one payload byte short. -/
theorem test_rxByte_short :
    gives (exec (.rxByte 0x7E) (heard base [0x02, 0x03, 0x01, 0x10, 0xAB, 0x3F]))
      (fun t => t.dlv == some ⟨0x03, 0x10, [0xAB]⟩) = true := by decide

/-- RX23, RX26: the two faults of the receive path. -/
theorem test_rxByteTerminator_ownAddrUnset :
    gives (exec .rxByteTerminator (heard noAddr accAddressed))
      (fun t => t.eng == .fault && t.faultReason == .ownAddrUnset && t.out.isEmpty) = true := by decide
theorem test_rxByteTerminator_noHandler :
    gives (exec .rxByteTerminator (heard noHandler accNoack))
      (fun t => t.eng == .fault && t.faultReason == .noHandler && t.out.isEmpty) = true := by decide

/-- RX7. -/
theorem test_frameAck : gives (exec (.frameAck ⟨0x02, 0x05, 0x06, []⟩) base) (· == base) = true := by decide

/-- RX4. -/
theorem test_frameNoack :
    gives (exec (.frameNoack ⟨0x02, 0x05, 0xFF, [0x11]⟩) base)
      (fun t => t.out == [.deliver 0x05 0xFF [0x11]] && t.eng == .deliver && !t.drive) = true := by decide

/-- RX19: the ACK to 09. -/
theorem test_frameAddressed :
    gives (exec (.frameAddressed ⟨0x02, 0x09, 0x10, tooLong⟩) base)
      (fun t => t.txBuf == listed 0 [0x7E, 0x09, 0x02, 0x01, 0x06, 0x90, 0x7E] && t.eng == .txAck) = true := by decide

/-- AR17: the ACK to this node itself. -/
theorem test_transmitAck :
    gives (exec (.transmitAck 0x02) (captured base))
      (fun t => t.txBuf == listed 0 [0x7E, 0x02, 0x02, 0x01, 0x06, 0x89, 0x7E] && t.drive) = true := by decide

/-- EN5, EN7: the longest frame; the size check comes before the own address is read. -/
theorem test_transmit_longest :
    gives (exec (.transmit 0x05 0x20 longest) base) (fun t => t.txLen == 16 && t.txBuf ==
      listed 0 ([0x7E, 0x05, 0x02, 0x01, 0x20] ++ longest ++ [0xD3, 0x7E])) = true := by decide
theorem test_transmit_tooLong :
    gives (exec (.transmit 0x09 0x42 tooLong) noAddr)
      (fun t => t.out == [.txResult .payloadTooLarge] && t.eng == .idle && !t.drive) = true := by decide

/-- EN3. -/
theorem test_transmitError :
    gives (exec (.transmitError 0x05 0x33) base)
      (fun t => t.txBuf == listed 0 [0x7E, 0x05, 0x02, 0x01, 0x33, 0xB9, 0x7E]) = true := by decide

/-- AR7, EX3: the next byte; the last completion with no handler. -/
theorem test_txDone_next :
    gives (exec .txDone (sending (captured base) .txAck 1)) (fun t => t.out == [.sendByte 0x05] && t.txIdx == 2) = true := by
  decide
theorem test_txDone_noHandler :
    gives (exec .txDone (sending (captured noHandler) .txAck 7))
      (fun t => t.out == [.drive false] && t.eng == .fault && t.faultReason == .noHandler) = true := by decide

/-- AR14: bytes still to be sent keep their `SRC`. -/
theorem test_configure :
    gives (exec (.configure 0x03) (sending base .txApp 1))
      (fun t => t.ownAddr == 0x03 && t.txBuf.read 2 == some 0x02) = true := by decide

/-- AR15. -/
theorem test_setHandler : gives (exec .setHandler noHandler) (·.handlerSet) = true := by decide

/-- AR9. -/
theorem test_deliverAccept :
    gives (exec .deliverAccept offering) (fun t => t.eng == .idle && t.dlv.isNone && t.out.isEmpty) = true := by decide

/-- RS2, EX5. -/
theorem test_reset_driving :
    gives (exec .reset (sending base .txApp 4)) (fun t => t.out == [.drive false] && t.eng == .idle && !t.drive) = true := by
  decide
theorem test_reset_fault : gives (exec .reset faulted) (fun t => t.out.isEmpty && t.eng == .idle && !t.ownSet) = true := by
  decide

/-- 30_encoding R81. -/
theorem test_outputs :
    gives (exec (.drive true) base) (·.out == [.drive true]) = true ∧
    gives (exec (.sendByte 0x7E) base) (·.out == [.sendByte 0x7E]) = true ∧
    gives (exec (.deliver 0x05 0x10 []) base) (·.out == [.deliver 0x05 0x10 []]) = true ∧
    gives (exec (.txResult .ok) base) (·.out == [.txResult .ok]) = true := by decide

/-- P4: a transmit held in `DELIVER` waits behind nothing; the accept after it is taken first. -/
theorem test_step_skips_held :
    gives (step (asked offering [[0x05, 0x05, 0x11, 1, 0xCC], [0x07]]))
      (fun t => t.eng == .idle && t.pending == [[0x05, 0x05, 0x11, 1, 0xCC]]) = true := by decide

/-- 20_memory R52: an unwritten byte in range is read, as a free value; an index at the capacity is not. -/
theorem test_bufRead_unwritten :
    bufRead 15 (Config.rxFree 0) State.reset.rxBuf 14 = .ok (Config.rxFree 0 14) ∧
    bufRead 15 (Config.rxFree 0) State.reset.rxBuf 15 = .error (.indexOutOfRange 15) := ⟨rfl, rfl⟩

/-! ### What meets the hypotheses of each statement -/

theorem test_witness_ChecksumIsTheSumCutToEightBits : (([0xFE, 0x01] : List Byte).map BitVec.toNat).sum ≤ 255 := by decide

theorem test_witness_OneChangedByteIsDetected :
    verify ([0x7E, 0x02, 0x05, 0x01, 0x10] ++ 0xAA :: [0xBB]) 0xFB = true ∧ (0xAB : Byte) ≠ 0xAA ∧ (0xFA : Byte) ≠ 0xFB := by
  decide

/-- DE2, DE4, DE3: one byte short of the length; the shortest length with a wrong and with a right sum. -/
theorem test_witness_Decode :
    ([0x7E, 0x02, 0x05, 0x01, 0x10] : List Byte).length < 6 ∧
    6 ≤ (0x7E :: accMismatch).length ∧
    compute ((0x7E :: accMismatch).take 5) ≠ (0x7E :: accMismatch).getD 5 0 ∧
    6 ≤ (0x7E :: accAddressed).length ∧
    compute ((0x7E :: accAddressed).take 5) = (0x7E :: accAddressed).getD 5 0 := by decide

/-- EN6, EN5: the first length that does not fit and the last that does, with and without an own address. -/
theorem test_witness_Encode :
    base.params.bufCap ≤ 6 + tooLong.length ∧ 6 + longest.length < base.params.bufCap ∧
    longest.length ≤ base.params.maxPayload ∧ noAddr.ownSet = false ∧ base.ownSet = true ∧
    noAddr.params = base.params := by decide

/-- EN5's frame, fed to an accumulator of the greatest length that is too short. -/
theorem test_witness_FedFrameDecodesToWhatWasEncoded :
    (heard base [1, 2, 3, 4]).eng = .idle ∧ (heard base [1, 2, 3, 4]).rxLen ≤ 4 ∧
    longest.length ≤ (heard base [1, 2, 3, 4]).params.maxPayload ∧
    ∀ b ∈ (wireFrame ex 0x02 0x05 0x20 longest).tail.dropLast, b ≠ ex.marker := by decide

/-- EN12; a frame whose cut candidate does not decode; and one with no payload. -/
theorem test_witness_MarkerChecksumShortensTheFrame :
    (heard base [1, 2, 3, 4]).eng = .idle ∧ (heard base [1, 2, 3, 4]).rxLen ≤ 4 ∧ 2 ≤ base.params.maxPayload ∧
    compute (frameBody ex 0x03 0x02 0x10 ([0xAB] ++ [0x3F])) = ex.marker ∧ (0x3F : Byte) + 0x3F = ex.marker ∧
    (∀ b ∈ (frameBody ex 0x03 0x02 0x10 ([0xAB] ++ [0x3F])).tail, b ≠ ex.marker) ∧
    compute (frameBody ex 0x03 0x02 0x10 ([0xAA] ++ [0x40])) = ex.marker ∧ (0x40 : Byte) + 0x40 ≠ ex.marker ∧
    (∀ b ∈ (frameBody ex 0x03 0x02 0x10 ([0xAA] ++ [0x40])).tail, b ≠ ex.marker) ∧
    compute (frameBody ex 0x05 0x02 0xF8 []) = ex.marker ∧
    (∀ b ∈ (frameBody ex 0x05 0x02 0xF8 []).tail, b ≠ ex.marker) := by decide

/-- The last free place. -/
theorem test_witness_DataByteIsAppended :
    ({ base with rxLen := 14 } : State).eng = .idle ∧ (0x7F : Byte) ≠ base.params.marker ∧
    ({ base with rxLen := 14 } : State).rxLen < base.params.accCap := by decide

theorem test_witness_OverflowDiscardsThePartialFrame :
    ({ base with rxLen := 15 } : State).eng = .idle ∧ (0x33 : Byte) ≠ base.params.marker ∧
    ({ base with rxLen := 15 } : State).rxLen = base.params.accCap := by decide

/-- The empty accumulator, one of four bytes, and five with a wrong sum. -/
theorem test_witness_UndecodableCandidateIsDiscarded :
    base.eng = .idle ∧ AccumulatorIs (heard base []) [] ∧ decodeFrame (ex.marker :: []) = .error .truncated ∧
    AccumulatorIs (heard base [1, 2, 3, 4]) [1, 2, 3, 4] ∧ decodeFrame (ex.marker :: [1, 2, 3, 4]) = .error .truncated ∧
    AccumulatorIs (heard base accMismatch) accMismatch ∧
    decodeFrame (ex.marker :: accMismatch) = .error .checksumMismatch :=
  ⟨by decide, ⟨by decide, by decide, by decide⟩, by decide, ⟨by decide, by decide, by decide⟩, by decide,
    ⟨by decide, by decide, by decide⟩, by decide⟩

theorem test_witness_AddressCheckDiscardsOrFaults :
    base.eng = .idle ∧ AccumulatorIs (heard base accElsewhere) accElsewhere ∧
    decodeFrame (ex.marker :: accElsewhere) = .ok ⟨0x09, 0x05, 0x10, [0x01]⟩ ∧ base.ownSet = true ∧
    (0x09 : Byte) ≠ base.ownAddr ∧ noAddr.eng = .idle ∧ AccumulatorIs (heard noAddr accElsewhere) accElsewhere ∧
    noAddr.ownSet = false :=
  ⟨by decide, ⟨by decide, by decide, by decide⟩, by decide, by decide, by decide, by decide,
    ⟨by decide, by decide, by decide⟩, by decide⟩

theorem test_witness_AckFrameIsDiscarded :
    base.eng = .idle ∧ base.ownSet = true ∧ base.ownAddr = 0x02 ∧ base.params.ackCode = 0x06 ∧
    AccumulatorIs (heard base accAck) accAck ∧
    decodeFrame (ex.marker :: accAck) = .ok ⟨0x02, 0x05, 0x06, []⟩ :=
  ⟨by decide, by decide, by decide, by decide, ⟨by decide, by decide, by decide⟩, by decide⟩

/-- With a handler, without one, and for another node. -/
theorem test_witness_NoackFrameIsDeliveredWithoutAck :
    base.eng = .idle ∧ base.ownSet = true ∧ (0xFF : Byte) ≠ base.params.ackCode ∧ base.params.broadcastCode = 0xFF ∧
    base.ownAddr = 0x02 ∧ base.handlerSet = true ∧ noHandler.handlerSet = false ∧ noHandler.eng = .idle ∧
    AccumulatorIs (heard base accNoack) accNoack ∧ AccumulatorIs (heard noHandler accNoack) accNoack ∧
    decodeFrame (ex.marker :: accNoack) = .ok ⟨0x02, 0x05, 0xFF, [0x11]⟩ ∧
    AccumulatorIs (heard base [0x03, 0x05, 0x01, 0xFF, 0x11, 0x97]) [0x03, 0x05, 0x01, 0xFF, 0x11, 0x97] ∧
    decodeFrame (ex.marker :: [0x03, 0x05, 0x01, 0xFF, 0x11, 0x97]) = .ok ⟨0x03, 0x05, 0xFF, [0x11]⟩ :=
  ⟨by decide, by decide, by decide, by decide, by decide, by decide, by decide, by decide,
    ⟨by decide, by decide, by decide⟩, ⟨by decide, by decide, by decide⟩, by decide,
    ⟨by decide, by decide, by decide⟩, by decide⟩

/-- For `AddressedFrameStartsItsAck` and `AddressedFrameIsAckedThenDelivered`. -/
theorem test_witness_AddressedFrame :
    (heard base accAddressed).eng = .idle ∧ base.ownSet = true ∧ base.handlerSet = true ∧ base.ownAddr = 0x02 ∧
    (0x10 : Byte) ≠ base.params.ackCode ∧ (0x10 : Byte) ≠ base.params.broadcastCode ∧
    AccumulatorIs (heard base accAddressed) accAddressed ∧
    decodeFrame (ex.marker :: accAddressed) = .ok ⟨0x02, 0x05, 0x10, []⟩ :=
  ⟨by decide, by decide, by decide, by decide, by decide, by decide, ⟨by decide, by decide, by decide⟩, by decide⟩

/-- Four bytes; five with a wrong sum; a candidate that decodes, with and without an own address. -/
theorem test_witness_CandidateTestsRunInOrder :
    AccumulatorIs (heard base [1, 2, 3, 4]) [1, 2, 3, 4] ∧ ([1, 2, 3, 4] : List Byte).length < 5 ∧
    AccumulatorIs (heard base accMismatch) accMismatch ∧ 5 ≤ accMismatch.length ∧
    compute (ex.marker :: accMismatch.dropLast) ≠ accMismatch.getLastD 0 ∧
    AccumulatorIs (heard base accAddressed) accAddressed ∧ AccumulatorIs (heard noAddr accAddressed) accAddressed ∧
    decodeFrame (ex.marker :: accAddressed) = .ok ⟨0x02, 0x05, 0x10, []⟩ ∧
    (heard base accAddressed).ownSet = true ∧ (heard noAddr accAddressed).ownSet = false ∧
    (heard base accAddressed).eng = .idle ∧ (heard noAddr accAddressed).eng = .idle :=
  ⟨⟨by decide, by decide, by decide⟩, by decide, ⟨by decide, by decide, by decide⟩, by decide, by decide,
    ⟨by decide, by decide, by decide⟩, ⟨by decide, by decide, by decide⟩, by decide, by decide, by decide, by decide,
    by decide⟩

theorem test_witness_ReceivedByteRunsItsClassRow : (0x7E : Byte) = base.params.marker ∧ (0x7F : Byte) ≠ base.params.marker := by
  decide

/-- A row of each kind with one wrong condition. -/
theorem test_witness_RowsOutsideTheirConditionAreRefused :
    faulted.eng ≠ .idle ∧ noAddr.ownSet = false ∧ (0x09 : Byte) ≠ base.ownAddr ∧ (0x10 : Byte) ≠ base.params.ackCode ∧
    (0x06 : Byte) = base.params.ackCode ∧ (0xFF : Byte) = base.params.broadcastCode ∧
    (0x10 : Byte) ≠ base.params.broadcastCode ∧ base.dlv = none := by decide

theorem test_witness_OversizedTransmitIsAnswered : base.eng = .idle ∧ base.params.bufCap ≤ 6 + tooLong.length := by decide

/-- For `TransmitStartsTheFrame`, `TransmitErrorSendsAnEmptyFrame` and `TransmitSendsTheWireFrameInOrder`. -/
theorem test_witness_TransmitStartsTheFrame :
    base.eng = .idle ∧ 6 + longest.length < base.params.bufCap ∧ base.ownSet = true ∧ noAddr.eng = .idle ∧
    6 + longest.length < noAddr.params.bufCap ∧ noAddr.ownSet = false := by decide

theorem test_witness_TransmitAckStartsTheAckFrame :
    (captured base).eng = .idle ∧ (captured base).dlv.isSome = true ∧ (captured base).ownSet = true := by decide

/-- The first and the last byte a completion sends. -/
theorem test_witness_TxDoneSendsTheNextByte :
    (sending base .txApp 1).eng = .txApp ∧ (sending base .txApp 1).txAt 1 = 0x05 ∧
    (sending base .txApp 6).txIdx < (sending base .txApp 6).txLen ∧
    (sending base .txApp 6).txIdx < (sending base .txApp 6).params.bufCap ∧
    (sending base .txApp 6).txAt 6 = 0x7E := by decide

theorem test_witness_LastTxDoneAnswersTheRequest :
    (sending base .txApp 7).eng = .txApp ∧ (sending base .txApp 7).txLen ≤ (sending base .txApp 7).txIdx := by decide

theorem test_witness_TxDoneInTxAckSendsOrDelivers :
    (sending (captured base) .txAck 6).eng = .txAck ∧
    (sending (captured base) .txAck 6).txIdx < (sending (captured base) .txAck 6).txLen ∧
    (sending (captured base) .txAck 6).txIdx < (sending (captured base) .txAck 6).params.bufCap ∧
    (sending (captured base) .txAck 6).txAt 6 = 0x7E ∧
    (sending (captured base) .txAck 7).txLen ≤ (sending (captured base) .txAck 7).txIdx ∧
    (sending (captured base) .txAck 7).handlerSet = true ∧
    (sending (captured base) .txAck 7).dlv = some ⟨0x05, 0x10, [0xAA]⟩ ∧
    (sending (captured noHandler) .txAck 7).eng = .txAck ∧
    (sending (captured noHandler) .txAck 7).txLen ≤ (sending (captured noHandler) .txAck 7).txIdx ∧
    (sending (captured noHandler) .txAck 7).handlerSet = false := by decide

/-- A request accepted, and the last completion of one accepted before. -/
theorem test_witness_EveryAcceptedRequestHasOneResult :
    (∃ t, Host.Core.run Sys2Proof.core 1 (asked base [[0x06, 0x05, 0x33]]) = .next t ∧
      resetIn 1 (asked base [[0x06, 0x05, 0x33]]) = false ∧ t.eng ≠ .fault ∧
      requestsIn 1 (asked base [[0x06, 0x05, 0x33]]) = 1) ∧
    (∃ t, Host.Core.run Sys2Proof.core 1 (asked (sending base .txApp 7) [[0x02]]) = .next t ∧
      resetIn 1 (asked (sending base .txApp 7) [[0x02]]) = false ∧ t.eng ≠ .fault ∧
      resultsIn 1 (asked (sending base .txApp 7) [[0x02]]) = 1) :=
  ⟨⟨_, rfl, by decide, by decide, by decide⟩, ⟨_, rfl, by decide, by decide, by decide⟩⟩

/-- EX1, a request that does not fit; and a start with a request in progress: each in one step. -/
theorem test_witness_RunThatReachesIdleIsFinished :
    (let s := asked base [0x05 :: 0x09 :: 0x42 :: encodePayload tooLong]
     resetIn 1 s = false ∧ takesRequest s = true ∧ ∃ t, Host.Core.run Sys2Proof.core 1 s = .next t ∧ t.eng = .idle) ∧
    let s := asked (sending base .txApp 7) [[0x02]]
    resetIn 1 s = false ∧ s.eng = .txApp ∧ ∃ t, Host.Core.run Sys2Proof.core 1 s = .next t ∧ t.eng = .idle :=
  ⟨⟨by decide, by decide, _, rfl, by decide⟩, by decide, by decide, _, rfl, by decide⟩

/-- For `AtMostOneByteIsOutstanding`, `ChangeOfDriveIsEmitted` and `ParametersNeverChange`. -/
theorem test_witness_StepThatSends :
    ∃ t, step (asked base [[0x06, 0x05, 0x33]]) = .next t ∧ Output.sendByte 0x7E ∈ t.out ∧
      t.drive ≠ (asked base [[0x06, 0x05, 0x33]]).drive :=
  ⟨_, rfl, by decide, by decide⟩

theorem test_witness_DeliverAcceptEndsTheDelivery : offering.eng = .deliver := by decide

/-- For `ConfigureSetsTheOwnAddress` and `SetHandlerSetsItsFlag`, in each state they allow. -/
theorem test_witness_NotFaulted :
    base.eng ≠ .fault ∧ (sending base .txApp 1).eng ≠ .fault ∧ (sending base .txAck 1).eng ≠ .fault ∧
    offering.eng ≠ .fault := by decide

theorem test_witness_DroppedEventsHaveNoEffect :
    Transmitting (sending base .txApp 1).eng ∧ Transmitting (sending base .txAck 1).eng ∧
    (0x05 : Byte) ≠ base.params.marker ∧ base.eng = .idle ∧ offering.eng = .deliver := by decide

/-- A received byte in `DELIVER` and in `FAULT`, a request in `TX_ACK`, and `TX_DONE` in `FAULT`. -/
theorem test_witness_HeldEventsStayPending :
    (asked offering [[0x01, 0x7E]]).pending = [[0x01, 0x7E]] ∧ decodeInput [0x01, 0x7E] = .ok (.rxByte 0x7E) ∧
    offering.eng = .deliver ∧ faulted.eng = .fault ∧
    decodeInput [0x06, 0x05, 0x33] = .ok (.transmitError 0x05 0x33) ∧ isRequest (.transmitError 0x05 0x33) = true ∧
    (sending base .txAck 1).eng ≠ .idle ∧ decodeInput [0x02] = .ok .txDone ∧ Instr.txDone ≠ .reset := by decide

theorem test_witness_StepWaitsWhileEveryEventIsHeld :
    ∀ q ∈ (asked offering [[0x01, 0x7E], [0x06, 0x05, 0x33]]).pending,
      ∃ j, decodeInput q = .ok j ∧ held j (asked offering [[0x01, 0x7E], [0x06, 0x05, 0x33]]).eng = true := by
  intro q hq
  rcases List.mem_cons.1 hq with rfl | hq
  · exact ⟨_, rfl, by decide⟩
  · rcases List.mem_singleton.1 hq with rfl
    exact ⟨_, rfl, by decide⟩

/-- A held byte, the accept that is taken, and an event after it. -/
theorem test_witness_StepRunsTheFirstEventNotHeld :
    (asked offering [[0x01, 0x7E], [0x07], [0x04]]).pending = [[0x01, 0x7E]] ++ [0x07] :: [[0x04]] ∧
    (∀ q ∈ [[0x01, 0x7E]], ∃ j, decodeInput q = .ok j ∧ held j offering.eng = true) ∧
    decodeInput [0x07] = .ok .deliverAccept ∧ held .deliverAccept offering.eng = false := by
  refine ⟨by decide, ?_, by decide, by decide⟩
  intro q hq
  rcases List.mem_singleton.1 hq with rfl
  exact ⟨_, rfl, by decide⟩

/-- The first tag that is no event, behind a held byte. -/
theorem test_witness_StepRefusesWhatIsNoEvent :
    7 < 8 ∧ (asked offering [[0x01, 0x7E], [0x08]]).pending = [[0x01, 0x7E]] ++ (0x08 :: []) :: [] ∧
    ∀ q ∈ [[0x01, 0x7E]], ∃ j, decodeInput q = .ok j ∧ held j offering.eng = true := by
  refine ⟨by decide, by decide, ?_⟩
  intro q hq
  rcases List.mem_singleton.1 hq with rfl
  exact ⟨_, rfl, by decide⟩

/-- A faulted block that is handed an event it holds. -/
theorem test_witness_FaultLastsUntilReset :
    Failed faulted ∧ resetIn 1 (asked faulted [[0x07]]) = false ∧
    ∃ t, Host.Core.run Sys2Proof.core 1 (asked faulted [[0x07]]) = .next t :=
  ⟨by decide, by decide, _, rfl⟩

/-- With no own address: both requests, and a terminator. -/
theorem test_witness_FaultedRunIsNeverFinished_ownAddr :
    noAddr.eng = .idle ∧ noAddr.ownSet = false ∧
    taken (asked noAddr [0x05 :: 0x09 :: 0x42 :: encodePayload longest]) = some (.transmit 0x09 0x42 longest) ∧
    6 + longest.length < noAddr.params.bufCap ∧
    taken (asked noAddr [[0x06, 0x05, 0x33]]) = some (.transmitError 0x05 0x33) ∧
    taken (asked (heard noAddr accAddressed) [[0x01, 0x7E]]) = some (.rxByte noAddr.params.marker) ∧
    AccumulatorIs (asked (heard noAddr accAddressed) [[0x01, 0x7E]]) accAddressed ∧
    decodeFrame (ex.marker :: accAddressed) = .ok ⟨0x02, 0x05, 0x10, []⟩ :=
  ⟨by decide, by decide, by decide, by decide, by decide, by decide, ⟨by decide, by decide, by decide⟩, by decide⟩

/-- With no handler: a no-ACK frame, and the last completion of an ACK. -/
theorem test_witness_FaultedRunIsNeverFinished_handler :
    noHandler.eng = .idle ∧ noHandler.ownSet = true ∧ noHandler.handlerSet = false ∧ noHandler.ownAddr = 0x02 ∧
    taken (asked (heard noHandler accNoack) [[0x01, 0x7E]]) = some (.rxByte noHandler.params.marker) ∧
    AccumulatorIs (asked (heard noHandler accNoack) [[0x01, 0x7E]]) accNoack ∧
    decodeFrame (ex.marker :: accNoack) = .ok ⟨0x02, 0x05, 0xFF, [0x11]⟩ ∧
    (0xFF : Byte) ≠ noHandler.params.ackCode ∧ (0xFF : Byte) = noHandler.params.broadcastCode ∧
    (let s := asked (sending (captured noHandler) .txAck 7) [[0x02]]
     s.eng = .txAck ∧ s.txLen ≤ s.txIdx ∧ s.handlerSet = false ∧ taken s = some .txDone) :=
  ⟨by decide, by decide, by decide, by decide, by decide, ⟨by decide, by decide, by decide⟩, by decide, by decide,
    by decide, by decide⟩

/-- RS2: a `RESET` with four of seven bytes sent. -/
theorem test_witness_AbandonedRequestIsNeverFinished :
    0 < 1 ∧ ∃ u, Host.Core.run Sys2Proof.core 0 (asked (sending base .txApp 4) [[0x00]]) = .next u ∧
      u.eng = .txApp ∧ taken u = some .reset :=
  ⟨by decide, _, rfl, by decide, by decide⟩

/-- A faulted block that waits, and one that takes a `RESET`. -/
theorem test_witness_FaultIsLeftByResetOnly :
    faulted.eng = .fault ∧ (∃ t, step (asked faulted [[0x07]]) = .next t) ∧
    ∃ t, step (asked faulted [[0x07], [0x00]]) = .next t ∧ t.eng = .idle :=
  ⟨by decide, ⟨_, rfl⟩, _, rfl, by decide⟩

/-- A delivery; and a fault from `IDLE` in a state that meets R36. -/
theorem test_witness_EngineMovesByTheTransitionTable :
    isInput (.rxByte 0x7E) = true ∧ (∃ t, exec (.rxByte 0x7E) (heard base accNoack) = .next t ∧ t.eng = .deliver) ∧
    BlockInv (heard noAddr accAddressed) ∧
    ∃ t, exec (.rxByte 0x7E) (heard noAddr accAddressed) = .next t ∧ t.eng = .fault :=
  ⟨by decide, ⟨_, rfl, by decide⟩,
    ⟨by decide, by decide, by decide, by decide, by decide, by decide, by decide⟩, _, rfl, by decide⟩

/-- Events that are none of an element's writers. -/
theorem test_witness_EachElementHasItsWriter :
    (∃ t, exec (.configure 0x03) base = .next t) ∧ Instr.configure 0x03 ≠ .reset ∧
    isReceive (.configure 0x03) = false ∧ isTransmitPath (.configure 0x03) = false ∧
    Instr.configure 0x03 ≠ .setHandler ∧ (∃ t, exec .setHandler base = .next t) ∧
    ∀ a, Instr.setHandler ≠ .configure a :=
  ⟨⟨_, rfl⟩, by decide, by decide, by decide, by decide, ⟨_, rfl⟩, fun _ h => by cases h⟩

/-- A state in `TX_ACK` with everything the invariant asks for, and a presented completion. -/
theorem inv_sending : Inv (asked (sending (captured base) .txAck 7) [[0x02]]) :=
  ⟨⟨by decide, by decide, by decide, by decide, by decide, by decide, by decide⟩,
    ⟨by decide, by decide, by decide, by decide⟩⟩

/-- For `EveryStepKeepsTheInvariant`, `NoStepFaults`, `EveryInputEventIsAnswered` and `UnwrittenBytesAreNeverUsed`. -/
theorem test_witness_EveryStepKeepsTheInvariant :
    Inv (asked (sending (captured base) .txAck 7) [[0x02]]) ∧ isInput .txDone = true ∧
    ∃ t, step (asked (sending (captured base) .txAck 7) [[0x02]]) = .next t ∧ t.eng = .deliver :=
  ⟨inv_sending, by decide, _, rfl, by decide⟩

/-- One instruction of each format whose well-formedness is a condition. -/
theorem test_witness_DecodingUndoesEncoding :
    Instr.wellFormed ex (.rxByteData 0x7F) = true ∧ Instr.wellFormed ex (.frameAck ⟨0x02, 0x05, 0x06, []⟩) = true ∧
    Instr.wellFormed ex (.frameNoack ⟨0x02, 0x05, 0xFF, [0x11]⟩) = true ∧
    Instr.wellFormed ex (.transmit 0x09 0x42 longest) = true := by decide

theorem test_witness_DecodedRecordIsTheEncodedOne :
    decodeRecord [0x05, 0x09, 0x42, 2, 0x01, 0x02] = .ok (.transmit 0x09 0x42 [0x01, 0x02]) := by decide

/-- The two capacities where the clauses meet. -/
theorem test_witness_BufferBelowSevenIsRefused :
    Params.ofBufCap 0x7E 0x06 0xFF 6 = none ∧ Params.ofBufCap 0x7E 0x06 0xFF 7 = some ⟨0x7E, 0x06, 0xFF, 0⟩ := by decide

end Sys2Proof.Tests
end

section
/-! PROOFS. The checksum validator's statements: spec/40_checksum.md. -/

namespace Sys2Proof

/-- R103: the empty list sums to 0. -/
@[simp] theorem compute_nil : compute [] = 0x00 := rfl

theorem compute_toNat_of_sum_le {bytes : List Byte} (hsum : byteSum bytes ≤ 255) :
    (compute bytes).toNat = byteSum bytes := by
  rw [compute_toNat, Nat.mod_eq_of_lt (Nat.lt_succ_of_le hsum)]

/-- Settles O1: both branches of `compute` are the sum modulo 256, which is the sum itself below 256. -/
theorem checksumIsTheSumCutToEightBits : Obligations.ChecksumIsTheSumCutToEightBits := by
  intro bytes
  rw [← byteSum_eq_sum]
  exact ⟨compute_toNat bytes, compute_toNat_of_sum_le⟩

/-- Settles O3: the comparison is `verify_iff`, and on the empty range the recomputed checksum is 0 (R103). -/
theorem verifyComparesTheChecksum : Obligations.VerifyComparesTheChecksum := by
  intro range claimed
  refine ⟨verify_iff range claimed, ?_⟩
  rw [verify_iff, compute_nil]
  exact eq_comm

end Sys2Proof
end

section
/-! PROOFS. The frame codec's statements: spec/41_codec.md. -/

namespace Sys2Proof

/-- R116: the length test comes before any other. -/
theorem decodeFrame_of_length_lt {F : List Byte} (hshort : F.length < 6) : decodeFrame F = .error .truncated := by
  unfold decodeFrame
  split
  · simp only [List.length_cons] at hshort
    omega
  · rfl

/-- A candidate that passes the length test has the shape that `decodeFrame_concat` reads. -/
theorem exists_eq_concat_of_six_le_length {F : List Byte} (hlen : 6 ≤ F.length) :
    ∃ start dst src ver cmd payload chk, F = start :: dst :: src :: ver :: cmd :: (payload ++ [chk]) := by
  match F, hlen with
  | start :: dst :: src :: ver :: cmd :: c :: rest, _ =>
    have hne : c :: rest ≠ [] := List.cons_ne_nil c rest
    exact ⟨start, dst, src, ver, cmd, (c :: rest).dropLast, (c :: rest).getLast hne,
      by rw [List.dropLast_concat_getLast]⟩

/-- R117, R118: from six bytes on, the checksum over all bytes but the last decides, and the fields are read by position. -/
theorem decodeFrame_of_six_le_length {F : List Byte} (hlen : 6 ≤ F.length) :
    decodeFrame F =
      if compute (F.take (F.length - 1)) = F.getD (F.length - 1) 0 then
        .ok ⟨F.getD 1 0, F.getD 2 0, F.getD 4 0, (F.drop 5).take (F.length - 6)⟩
      else .error .checksumMismatch := by
  obtain ⟨start, dst, src, ver, cmd, payload, chk, rfl⟩ := exists_eq_concat_of_six_le_length hlen
  rw [decodeFrame_concat]
  simp [verify_iff]

/-- Settles O6: the two lengths' lemmas, the second split on its checksum test. -/
theorem decodeTestsLengthThenChecksumThenReadsFields : Obligations.DecodeTestsLengthThenChecksumThenReadsFields := by
  intro F
  refine ⟨decodeFrame_of_length_lt, fun hlen hsum => ?_, fun hlen hsum => ?_⟩
  · rw [decodeFrame_of_six_le_length hlen, if_neg hsum]
  · rw [decodeFrame_of_six_le_length hlen, if_pos hsum]

namespace Machine

/-- R113: past the size check, an unset own address is the outcome. -/
theorem encodeFrame_unset {s : State} (hs : s.ownSet = false) (dst cmd : Byte) {payload : List Byte}
    (hfit : 6 + payload.length < s.params.bufCap) : encodeFrame dst cmd payload s = .ownAddrUnset := by
  rw [encodeFrame_fitting dst cmd hfit, encodeFitting_unset hs]

/-- R112: the success of `encode`, with the buffer told by R71's offsets. -/
theorem encodeFrame_set {s : State} (hs : s.ownSet = true) (dst cmd : Byte) {payload : List Byte}
    (hfit : 6 + payload.length < s.params.bufCap) :
    ∃ m, encodeFrame dst cmd payload s = .ok { s with txBuf := m, txLen := payload.length + 7 } ∧
      WireFrameAt m s.params s.ownAddr dst cmd payload ∧
      ∀ a, payload.length + 7 ≤ a → m.read a = s.txBuf.read a := by
  obtain ⟨m, hencode, hread, -⟩ := encodeFitting_set hs dst cmd (payload := payload) (by omega)
  refine ⟨m, ?_, wireFrameAt_of_reads fun a ha => ?_, fun a ha => ?_⟩
  · rw [encodeFrame_fitting dst cmd hfit, hencode]
  · rw [hread, if_pos ha]
  · rw [hread, if_neg (by omega)]

/-- R111: of the outcomes, `PAYLOAD_TOO_LARGE` is the size check's alone. -/
theorem encodeFrame_eq_tooLarge_iff {s : State} {dst cmd : Byte} {payload : List Byte} :
    encodeFrame dst cmd payload s = .payloadTooLarge ↔ s.params.bufCap ≤ 6 + payload.length := by
  refine ⟨fun h => ?_, encodeFrame_tooLarge dst cmd⟩
  by_contra hle
  have hfit : 6 + payload.length < s.params.bufCap := Nat.not_le.1 hle
  cases hs : s.ownSet with
  | false =>
    rw [encodeFrame_unset hs dst cmd hfit] at h
    cases h
  | true =>
    obtain ⟨m, hok, -⟩ := encodeFrame_set hs dst cmd hfit
    rw [hok] at h
    cases h

/-- Settles O7: the failure is `encodeFrame_eq_tooLarge_iff`, and the bounds are R10's `BUF_CAP = MAX_PAYLOAD + 7`. -/
theorem encodeFailsExactlyWhenTheFrameDoesNotFit : Obligations.EncodeFailsExactlyWhenTheFrameDoesNotFit := by
  intro s dst cmd payload
  have hcap : s.params.bufCap = s.params.maxPayload + 7 := rfl
  refine ⟨encodeFrame_eq_tooLarge_iff, ?_, by omega, ?_⟩
  · rw [ne_eq, encodeFrame_eq_tooLarge_iff]
    omega
  · rw [length_wireFrame]
    omega

/-- Settles O8: one lemma for each of the three outcomes of `encode`. -/
theorem encodeLaysOutTheWireFrame : Obligations.EncodeLaysOutTheWireFrame := by
  intro s dst cmd payload
  exact ⟨encodeFrame_tooLarge dst cmd, fun hfit hs => encodeFrame_unset hs dst cmd hfit,
    fun hfit hs => encodeFrame_set hs dst cmd hfit⟩

end Machine

end Sys2Proof
end

section
/-! PROOFS. The reassembler's statements: spec/42_reassembler.md. -/

namespace Sys2Proof.Machine

/-! ### The rows of a received byte -/

/-- R74: a received `MARKER` runs the terminator row. -/
theorem exec_rxByte_marker (s : State) : exec (.rxByte s.params.marker) s = exec .rxByteTerminator s := if_pos rfl

/-- R74: every other received byte runs the data row. -/
theorem exec_rxByte_data {s : State} {b : Byte} (hb : b ≠ s.params.marker) :
    exec (.rxByte b) s = exec (.rxByteData b) s := if_neg hb

theorem exec_rxByteTerminator_idle {s : State} (hidle : s.eng = .idle) :
    exec .rxByteTerminator s = frameBoundary s := by
  simp only [exec, execRxByteTerminator, hidle]

theorem exec_rxByteData_idle {s : State} {b : Byte} (hidle : s.eng = .idle) (hb : b ≠ s.params.marker) :
    exec (.rxByteData b) s = accumulate b s := by
  simp only [exec, execRxByteData, if_neg hb, hidle]

/-- R141: with room in the accumulator, the byte is written at the cursor. -/
theorem accumulate_of_room {s : State} {b : Byte} (hroom : s.rxLen < s.params.accCap) :
    accumulate b s = .next { s with rxBuf := s.rxBuf.write s.rxLen b, rxLen := s.rxLen + 1 } := by
  have hwrite : bufWrite s.params.accCap s.rxBuf s.rxLen b = .ok (s.rxBuf.write s.rxLen b) :=
    bufWrite_eq_ok.2 ⟨hroom, rfl⟩
  simp only [accumulate, if_neg hroom.ne, hwrite]

/-- Settles O11: both rows answer `accumulate`, whose buffer is one `Memory.write`. -/
theorem dataByteIsAppended : Obligations.DataByteIsAppended := by
  intro s b hidle hb hroom
  have hdata := (exec_rxByteData_idle hidle hb).trans (accumulate_of_room hroom)
  exact ⟨s.rxBuf.write s.rxLen b, (exec_rxByte_data hb).trans hdata, hdata, Memory.read_write_same _ _ _,
    fun _ ha => Memory.read_write_ne _ _ ha⟩

/-! ### The verdict on a candidate -/

theorem readOwnAddr_set {s : State} (hset : s.ownSet = true) : readOwnAddr s = some s.ownAddr := if_pos hset

/-- The verdict on a decoded frame addressed to this node, by its class (30_encoding R75). -/
def verdictHere (f : Frame) : CmdClass → Verdict
  | .ack => .ack f
  | .noack => .noack f
  | .addressed => .addressed f

theorem judge_undecodable {F : List Byte} {e : DecodeError} (p : Params) (own : Option Byte)
    (hdec : decodeFrame F = .error e) : ∃ o, judge p own F = .silent o := by
  cases e with
  | truncated => exact ⟨.truncated, by simp only [judge, hdec]⟩
  | checksumMismatch => exact ⟨.checksumMismatch, by simp only [judge, hdec]⟩

theorem judge_elsewhere {F : List Byte} {f : Frame} {a : Byte} (p : Params) (hdec : decodeFrame F = .ok f)
    (hdst : f.dst ≠ a) : judge p (some a) F = .silent .wrongDestination := by
  simp only [judge, hdec, if_neg hdst]

theorem judge_here {F : List Byte} {f : Frame} {a : Byte} (p : Params) (hdec : decodeFrame F = .ok f)
    (hdst : f.dst = a) : judge p (some a) F = verdictHere f (cmdClass p f.cmd) := by
  simp only [judge, hdec, if_pos hdst]
  cases cmdClass p f.cmd <;> rfl

theorem cmdClass_ack {p : Params} {cmd : Byte} (hack : cmd = p.ackCode) : cmdClass p cmd = .ack := if_pos hack

theorem cmdClass_noack {p : Params} {cmd : Byte} (hack : cmd ≠ p.ackCode) (hbroadcast : cmd = p.broadcastCode) :
    cmdClass p cmd = .noack := by
  rw [cmdClass, if_neg hack, if_pos hbroadcast]

/-! ### A frame boundary with a known accumulator -/

/-- R144, R145: the event and its terminator row both dispatch the verdict on the candidate, the cursor reset. -/
theorem exec_boundary {s : State} {acc : List Byte} {i : Instr} (hidle : s.eng = .idle) (hacc : AccumulatorIs s acc)
    (hi : i ∈ [Instr.rxByte s.params.marker, .rxByteTerminator]) :
    exec i s = dispatch { s with rxLen := 0 } (judge s.params (readOwnAddr s) (s.params.marker :: acc)) := by
  have hrow : exec .rxByteTerminator s =
      dispatch { s with rxLen := 0 } (judge s.params (readOwnAddr s) (s.params.marker :: acc)) := by
    rw [exec_rxByteTerminator_idle hidle, frameBoundary_of_accumulator hacc]
  simp only [List.mem_cons, List.not_mem_nil, or_false] at hi
  obtain rfl | rfl := hi
  · rw [exec_rxByte_marker, hrow]
  · exact hrow

theorem rxOutcome_of_accumulator {s : State} {acc : List Byte} (hacc : AccumulatorIs s acc) :
    rxOutcome s.params.marker s = (judge s.params (readOwnAddr s) (s.params.marker :: acc)).outcome := by
  simp only [rxOutcome, if_true, candidate_of_accumulator hacc]

/-- R146, R147: a candidate with a silent verdict is discarded. -/
theorem exec_boundary_silent {s : State} {acc : List Byte} {o : RxOutcome} {i : Instr} (hidle : s.eng = .idle)
    (hacc : AccumulatorIs s acc) (hv : judge s.params (readOwnAddr s) (s.params.marker :: acc) = .silent o)
    (hi : i ∈ [Instr.rxByte s.params.marker, .rxByteTerminator]) : exec i s = .next { s with rxLen := 0 } := by
  rw [exec_boundary hidle hacc hi, hv, dispatch]

/-- Settles O13: either decode error gives a silent verdict. -/
theorem undecodableCandidateIsDiscarded : Obligations.UndecodableCandidateIsDiscarded := by
  intro s acc e hidle hacc hdec
  obtain ⟨o, hv⟩ := judge_undecodable s.params (readOwnAddr s) hdec
  exact ⟨exec_boundary_silent hidle hacc hv (by simp), exec_boundary_silent hidle hacc hv (by simp)⟩

/-- R147: a decoded frame for another node is discarded, whatever its command. -/
theorem exec_boundary_elsewhere {s : State} {acc : List Byte} {f : Frame} {i : Instr} (hidle : s.eng = .idle)
    (hset : s.ownSet = true) (hdst : f.dst ≠ s.ownAddr) (hacc : AccumulatorIs s acc)
    (hdec : decodeFrame (s.params.marker :: acc) = .ok f)
    (hi : i ∈ [Instr.rxByte s.params.marker, .rxByteTerminator]) : exec i s = .next { s with rxLen := 0 } := by
  have hv := judge_elsewhere s.params hdec hdst
  rw [← readOwnAddr_set hset] at hv
  exact exec_boundary_silent hidle hacc hv hi

/-! ### The rows of a frame for this node -/

section ForThisNode

variable {s : State} {f : Frame} (hidle : s.eng = .idle) (hset : s.ownSet = true) (hdst : f.dst = s.ownAddr)
include hset hdst

theorem judge_of_accumulator {acc : List Byte} (hdec : decodeFrame (s.params.marker :: acc) = .ok f) :
    judge s.params (readOwnAddr s) (s.params.marker :: acc) = verdictHere f (cmdClass s.params f.cmd) := by
  rw [readOwnAddr_set hset, judge_here s.params hdec hdst]

include hidle

theorem frameSelected_of_class {c : CmdClass} (hclass : cmdClass s.params f.cmd = c) : frameSelected c f s = true :=
  decide_eq_true ⟨hidle, hset, hdst, hclass⟩

/-- R148: the row of an ACK changes nothing. -/
theorem execFrameAck_selected (hclass : cmdClass s.params f.cmd = .ack) : execFrameAck f s = .next s :=
  if_pos (frameSelected_of_class hidle hset hdst hclass)

/-- R149: the row of a no-ACK frame captures the delivery and enters it, with no frame started. -/
theorem execFrameNoack_selected (hclass : cmdClass s.params f.cmd = .noack) :
    execFrameNoack f s = enterDeliver (capture f s) :=
  if_pos (frameSelected_of_class hidle hset hdst hclass)

/-- R149 with a handler: the delivery is offered at once (43 R179). -/
theorem execFrameNoack_handler (hclass : cmdClass s.params f.cmd = .noack) (hh : s.handlerSet = true) :
    execFrameNoack f s = .next { s with
      dlv := some ⟨f.src, f.cmd, f.payload⟩, out := s.out ++ [.deliver f.src f.cmd f.payload], eng := .deliver } := by
  rw [execFrameNoack_selected hidle hset hdst hclass]
  exact enterDeliver_of_handler (s := capture f s) hh (capture_dlv f s)

/-- R149 with no handler: the block enters `FAULT` (60_exceptions R220). -/
theorem execFrameNoack_no_handler (hclass : cmdClass s.params f.cmd = .noack) (hh : s.handlerSet = false) :
    execFrameNoack f s = .next { s with
      dlv := some ⟨f.src, f.cmd, f.payload⟩, faultReason := .noHandler, eng := .fault } := by
  rw [execFrameNoack_selected hidle hset hdst hclass]
  exact enterDeliver_no_handler (s := capture f s) hh

variable {acc : List Byte} {i : Instr} (hacc : AccumulatorIs s acc)
  (hdec : decodeFrame (s.params.marker :: acc) = .ok f)
  (hi : i ∈ [Instr.rxByte s.params.marker, .rxByteTerminator])
include hacc hdec hi

/-- A boundary whose candidate is for this node dispatches the frame by its class, the cursor reset. -/
theorem exec_boundary_here :
    exec i s = dispatch { s with rxLen := 0 } (verdictHere f (cmdClass s.params f.cmd)) := by
  rw [exec_boundary hidle hacc hi, judge_of_accumulator hset hdst hdec]

theorem exec_boundary_ack (hclass : cmdClass s.params f.cmd = .ack) : exec i s = .next { s with rxLen := 0 } := by
  rw [exec_boundary_here hidle hset hdst hacc hdec hi, hclass]
  exact execFrameAck_selected (s := { s with rxLen := 0 }) hidle hset hdst hclass

theorem exec_boundary_noack (hclass : cmdClass s.params f.cmd = .noack) :
    exec i s = execFrameNoack f { s with rxLen := 0 } := by
  rw [exec_boundary_here hidle hset hdst hacc hdec hi, hclass]
  rfl

end ForThisNode

/-- Settles O15: the frame is of the class `ack`, in the row and in the verdict alike. -/
theorem ackFrameIsDiscarded : Obligations.AckFrameIsDiscarded := by
  intro s f hidle hset hdst hack
  have hclass := cmdClass_ack hack
  refine ⟨execFrameAck_selected hidle hset hdst hclass, fun acc hacc hdec => ⟨?_, ?_, ?_⟩⟩
  · rw [rxOutcome_of_accumulator hacc, judge_of_accumulator hset hdst hdec, hclass]
    rfl
  · exact exec_boundary_ack hidle hset hdst hacc hdec (by simp) hclass
  · exact exec_boundary_ack hidle hset hdst hacc hdec (by simp) hclass

/-- Settles O16: for this node a boundary runs the no-ACK row on the state with its cursor reset, so each of the
row's two answers is also the boundary's; a frame for another node never reaches the row. -/
theorem noackFrameIsDeliveredWithoutAck : Obligations.NoackFrameIsDeliveredWithoutAck := by
  intro s f hidle hset hack hbroadcast
  have hclass := cmdClass_noack hack hbroadcast
  refine ⟨fun hdst hh => ⟨?row, fun acc hacc hdec i hi => ?boundary⟩,
    fun hdst hh => ⟨?faultRow, fun acc hacc hdec i hi => ?faultBoundary⟩,
    fun hdst acc hacc hdec i hi => ?elsewhere, fun hdst acc hacc hdec => ?outcome⟩
  case row => exact execFrameNoack_handler hidle hset hdst hclass hh
  case boundary =>
    rw [exec_boundary_noack hidle hset hdst hacc hdec hi hclass]
    exact execFrameNoack_handler (s := { s with rxLen := 0 }) hidle hset hdst hclass hh
  case faultRow => exact execFrameNoack_no_handler hidle hset hdst hclass hh
  case faultBoundary =>
    rw [exec_boundary_noack hidle hset hdst hacc hdec hi hclass]
    exact execFrameNoack_no_handler (s := { s with rxLen := 0 }) hidle hset hdst hclass hh
  case elsewhere => exact exec_boundary_elsewhere hidle hset hdst hacc hdec hi
  case outcome =>
    rw [rxOutcome_of_accumulator hacc, judge_of_accumulator hset hdst hdec, hclass]
    rfl

end Sys2Proof.Machine
end

section
/-! PROOFS. The transmit arbiter's statements: spec/43_transmit_arbiter.md. -/

namespace Sys2Proof.Machine

/-! ### `TX_DONE` in `TX_ACK` -/

/-- R177: while bytes of the ACK frame remain, the row sends the next one. -/
theorem exec_txDone_txAck_of_lt {s : State} (hack : s.eng = .txAck) (hmore : s.txIdx < s.txLen) :
    exec .txDone s = sendNext s := by
  simp only [exec, execTxDone, hack, if_pos hmore]

/-- R177: after the last byte of the ACK frame, the row releases the line and enters the delivery. -/
theorem exec_txDone_txAck_of_le {s : State} (hack : s.eng = .txAck) (hsent : s.txLen ≤ s.txIdx) :
    exec .txDone s = enterDeliver (setDrive false s) := by
  simp only [exec, execTxDone, hack, if_neg hsent.not_gt]

/-- R179 after `DRIVE(d)`: with a handler, the two outputs stand in that order. -/
theorem enterDeliver_setDrive_of_handler {s : State} {v : Delivery} (d : Bool) (hh : s.handlerSet = true)
    (hv : s.dlv = some v) :
    enterDeliver (setDrive d s) = .next { s with
      drive := d, eng := .deliver, out := s.out ++ [.drive d, .deliver v.src v.cmd v.payload] } := by
  have happend : s.out ++ [.drive d] ++ [.deliver v.src v.cmd v.payload] =
      s.out ++ [.drive d, .deliver v.src v.cmd v.payload] := List.append_assoc ..
  rw [enterDeliver_of_handler (s := setDrive d s) hh hv, setDrive_out, happend]
  rfl

/-- Settles O27: `tx_idx` against `tx_len` selects `sendNext` or `enterDeliver`, and the handler the latter's answer. -/
theorem txDoneInTxAckSendsOrDelivers : Obligations.TxDoneInTxAckSendsOrDelivers := by
  intro s hack
  refine ⟨fun hmore hcap => ?nextByte, fun d hsent hh hd => ?delivery, fun hsent hh => ?noHandler⟩
  case nextByte => rw [exec_txDone_txAck_of_lt hack hmore, sendNext_in_range hcap]
  case delivery => rw [exec_txDone_txAck_of_le hack hsent, enterDeliver_setDrive_of_handler false hh hd]
  case noHandler =>
    rw [exec_txDone_txAck_of_le hack hsent]
    exact enterDeliver_no_handler (s := setDrive false s) hh

end Sys2Proof.Machine
end

section
/-! PROOFS. The exceptions' statements: spec/60_exceptions.md. -/

namespace Sys2Proof

/-- R72, R116: the candidate of an accumulator of fewer than five bytes is too short. -/
theorem decodeFrame_cons_truncated {start : Byte} {acc : List Byte} (hshort : acc.length < 5) :
    decodeFrame (start :: acc) = .error .truncated :=
  decodeFrame_of_length_lt (Nat.succ_lt_succ hshort)

/-- R72, R117: the sum runs over the start marker and all the accumulator but its last byte, the claimed checksum. -/
theorem decodeFrame_cons_mismatch {start : Byte} {acc : List Byte} (hlen : 5 ≤ acc.length)
    (hsum : compute (start :: acc.dropLast) ≠ acc.getLastD 0) :
    decodeFrame (start :: acc) = .error .checksumMismatch := by
  have hsix : 6 ≤ (start :: acc).length := Nat.succ_le_succ hlen
  obtain rfl | ⟨init, chk, rfl⟩ := acc.eq_nil_or_concat'
  · simp at hlen
  · rw [decodeFrame_of_six_le_length hsix, if_neg]
    simpa using hsum

namespace Machine

theorem readOwnAddr_unset {s : State} (hunset : s.ownSet = false) : readOwnAddr s = none := if_neg (by simp [hunset])

/-! ### The verdict of each test of R218 -/

theorem judge_truncated {F : List Byte} (p : Params) (own : Option Byte) (hdec : decodeFrame F = .error .truncated) :
    judge p own F = .silent .truncated := by
  simp only [judge, hdec]

theorem judge_checksumMismatch {F : List Byte} (p : Params) (own : Option Byte)
    (hdec : decodeFrame F = .error .checksumMismatch) : judge p own F = .silent .checksumMismatch := by
  simp only [judge, hdec]

/-- R147: the own address is read only once the candidate has decoded. -/
theorem judge_none {F : List Byte} {f : Frame} (p : Params) (hdec : decodeFrame F = .ok f) :
    judge p none F = .ownAddrUnset := by
  simp only [judge, hdec]

/-- R148 to R150: for this node the outcome is the command class's, `ACK_CODE` tested first. -/
theorem outcome_verdictHere (p : Params) (f : Frame) :
    (verdictHere f (cmdClass p f.cmd)).outcome =
      if f.cmd = p.ackCode then some .ackDiscarded
      else if f.cmd = p.broadcastCode then some .deliverNoack
      else some .deliverAck := by
  unfold cmdClass
  split_ifs <;> rfl

/-- R147 to R150: with an own address `a`, the destination is tested before the command. -/
theorem outcome_judge_some {F : List Byte} {f : Frame} (p : Params) (a : Byte) (hdec : decodeFrame F = .ok f) :
    (judge p (some a) F).outcome =
      if f.dst ≠ a then some .wrongDestination
      else if f.cmd = p.ackCode then some .ackDiscarded
      else if f.cmd = p.broadcastCode then some .deliverNoack
      else some .deliverAck := by
  by_cases hdst : f.dst = a
  · rw [judge_here p hdec hdst, outcome_verdictHere, if_neg (not_not_intro hdst)]
  · rw [judge_elsewhere p hdec hdst, if_pos hdst]
    rfl

/-- Settles O18: the outcome is that of the verdict on the candidate, and each test of R218 has its lemma on `judge`. -/
theorem candidateTestsRunInOrder : Obligations.CandidateTestsRunInOrder := by
  intro s acc hidle hacc
  rw [rxOutcome_of_accumulator hacc]
  refine ⟨fun hshort => ?truncated, fun hlen hsum => ?mismatch,
    fun f hdec => ⟨fun hunset => ⟨?noOutcome, ?fault⟩, fun hset => ?decoded⟩⟩
  case truncated =>
    rw [judge_truncated _ _ (decodeFrame_cons_truncated hshort)]
    rfl
  case mismatch =>
    rw [judge_checksumMismatch _ _ (decodeFrame_cons_mismatch hlen hsum)]
    rfl
  case noOutcome =>
    rw [readOwnAddr_unset hunset, judge_none _ hdec]
    rfl
  case fault =>
    rw [exec_boundary hidle hacc (by simp), readOwnAddr_unset hunset, judge_none _ hdec]
    rfl
  case decoded => rw [readOwnAddr_set hset, outcome_judge_some _ _ hdec]

end Machine

end Sys2Proof
end

section
/-! PROOFS. The checksum as an eight-bit running sum, and what it detects: spec/40_checksum.md. -/

namespace Sys2Proof

/-- R101: the checksum takes concatenation to eight-bit addition. -/
theorem compute_append (p q : List Byte) : compute (p ++ q) = compute p + compute q := by
  rw [compute_eq, compute_eq, compute_eq, byteSum_append, BitVec.ofNat_add]

@[simp] theorem compute_singleton (b : Byte) : compute [b] = b := by
  simp [compute_eq]

theorem compute_cons (b : Byte) (bs : List Byte) : compute (b :: bs) = b + compute bs := by
  rw [← List.singleton_append, compute_append, compute_singleton]

theorem compute_concat (bs : List Byte) (b : Byte) : compute (bs ++ [b]) = compute bs + b := by
  rw [compute_append, compute_singleton]

/-- The fold by which R101's running sum is written. -/
theorem compute_eq_foldl (bytes : List Byte) : compute bytes = bytes.foldl (· + ·) 0 := by
  induction bytes using List.reverseRecOn with
  | nil => rfl
  | append_singleton bs b ih => rw [compute_concat, List.foldl_concat, ih]

/-- Settles O2: `compute_concat`, and its iteration over the list. -/
theorem checksumIsARunningByteSum : Obligations.ChecksumIsARunningByteSum :=
  fun bytes x => ⟨compute_concat bytes x, compute_eq_foldl bytes⟩

/-- R105 (a): the checksum of a range fixes any one byte of it, the others known. -/
theorem byte_eq_of_compute_eq {before after : List Byte} {x y : Byte}
    (h : compute (before ++ y :: after) = compute (before ++ x :: after)) : y = x := by
  rw [compute_append, compute_append, compute_cons, compute_cons] at h
  exact add_right_cancel (add_left_cancel h)

/-- Settles O4: were the changed range or byte to verify, its checksum would be the first one's. -/
theorem oneChangedByteIsDetected : Obligations.OneChangedByteIsDetected := by
  intro before after x y claimed other hverify
  rw [verify_iff] at hverify
  refine ⟨fun hne => ?changedRange, fun hne => ?changedClaim⟩
  case changedRange =>
    refine Bool.eq_false_iff.2 fun h => hne ?_
    exact byte_eq_of_compute_eq (((verify_iff _ _).1 h).trans hverify.symm)
  case changedClaim =>
    exact Bool.eq_false_iff.2 fun h => hne (((verify_iff _ _).1 h).symm.trans hverify)

/-- Settles O5: in the sum of the range `k` is added once and subtracted once. -/
theorem cancellingChangesAreNotDetected : Obligations.CancellingChangesAreNotDetected := by
  intro before between after x y k claimed
  have hsum : compute (before ++ (x + k) :: (between ++ (y - k) :: after)) =
      compute (before ++ x :: (between ++ y :: after)) := by
    simp only [compute_append, compute_cons]
    ring
  rw [verify, verify, hsum]

end Sys2Proof
end

section
/-! PROOFS. Event records and the other words: spec/30_encoding.md; and the parameters of spec/00_scope.md. -/

namespace Sys2Proof

/-- R80, R81: what the decoder reads off the front of a list of items is one event's record. -/
theorem decodePrefix_eq_ok {p : Params} {xs ys : List Nat} {i : Instr} :
    decodePrefix xs = .ok (i, ys) ↔ ∃ r, encode p i = .event r ∧ xs = r ++ ys := by
  constructor
  case mp =>
    intro h
    unfold decodePrefix at h
    split at h
    · cases h
    next tag zs =>
    split at h
    case h_1 | h_3 | h_5 | h_8 => cases h; exact ⟨_, rfl, rfl⟩
    case h_2 | h_4 | h_10 => obtain ⟨x, rfl, rfl⟩ := takeOne_eq_ok.1 h; exact ⟨_, rfl, rfl⟩
    case h_6 | h_11 => obtain ⟨x, y, bs, rfl, rfl⟩ := takeMessage_eq_ok.1 h; exact ⟨_, rfl, rfl⟩
    case h_7 => obtain ⟨x, y, rfl, rfl⟩ := takeTwo_eq_ok.1 h; exact ⟨_, rfl, rfl⟩
    case h_9 => obtain ⟨d, rfl, rfl⟩ := takeDrive_eq_ok.1 h; exact ⟨_, rfl, rfl⟩
    case h_12 => obtain ⟨r, rfl, rfl⟩ := takeResult_eq_ok.1 h; exact ⟨_, rfl, rfl⟩
    case h_13 => cases h
  case mpr =>
    rintro ⟨r, hr, rfl⟩
    cases i with
    | reset | txDone | setHandler | deliverAccept => cases hr; rfl
    | rxByte b | configure b | sendByte b => cases hr; exact takeOne_eq_ok.2 ⟨b, rfl, rfl⟩
    | transmit x y bs | deliver x y bs => cases hr; exact takeMessage_eq_ok.2 ⟨x, y, bs, rfl, rfl⟩
    | transmitError x y => cases hr; exact takeTwo_eq_ok.2 ⟨x, y, rfl, rfl⟩
    | drive d => cases hr; exact (takeDrive_eq_ok (tag := 0x81)).2 ⟨d, rfl, rfl⟩
    | txResult r => cases hr; exact (takeResult_eq_ok (tag := 0x84)).2 ⟨r, rfl, rfl⟩
    | rxByteTerminator | rxByteData | frameAck | frameNoack | frameAddressed | transmitAck => cases hr

/-- A record decodes when nothing is left after its event. -/
theorem decodeRecord_eq_ok_iff_nothing_left {r : Record} {i : Instr} :
    decodeRecord r = .ok i ↔ decodePrefix r = .ok (i, []) := by
  unfold decodeRecord
  split
  next h => simp [h]
  next h => simp [h]
  next h => simp [h]

/-- Event records decode and encode each other. -/
theorem decodeRecord_eq_ok {p : Params} {r : Record} {i : Instr} :
    decodeRecord r = .ok i ↔ encode p i = .event r := by
  rw [decodeRecord_eq_ok_iff_nothing_left, decodePrefix_eq_ok (p := p)]
  simp

theorem decode_of_event {p : Params} {i : Instr} {r : Record} (h : encode p i = .event r) :
    decode p (encode p i) = .ok i := by
  rw [h]
  exact decodeRecord_eq_ok.2 h

/-- R72, R75: the candidate of a frame is of the frame's command class. -/
theorem decode_encodeCandidate (p : Params) (f : Frame) :
    decode p (.frameCmd (encodeCandidate p f)) = .ok (decodeFrameCmd p f) := by
  simp only [decode, decodeFrame_encodeCandidate]

/-- Settles O53: a byte row by its class, a frame row by its candidate's class, and an event row by its record. -/
theorem decodingUndoesEncoding : Obligations.DecodingUndoesEncoding := by
  intro p i hwf
  cases i with
  | rxByteTerminator => exact congrArg Except.ok (if_pos rfl)
  | rxByteData b => exact congrArg Except.ok (if_neg (of_decide_eq_true hwf))
  | frameAck f | frameNoack f | frameAddressed f =>
    simp only [Instr.wellFormed, Bool.and_eq_true, decide_eq_true_eq] at hwf
    rw [encode, decode_encodeCandidate, decodeFrameCmd, hwf.1]
  | transmitAck d => rfl
  | reset | rxByte | txDone | configure | setHandler | transmit | transmitError | deliverAccept | drive | sendByte
  | deliver | txResult => exact decode_of_event rfl

/-- Settles O54: the forward half of `decodeRecord_eq_ok`. -/
theorem decodedRecordIsTheEncodedOne : Obligations.DecodedRecordIsTheEncodedOne :=
  fun _ _ _ h => decodeRecord_eq_ok.1 h

/-- Settles O55: the decoder runs on six closed records. -/
theorem sampleRecordsDecode : Obligations.SampleRecordsDecode :=
  ⟨by decide, by decide, by decide, by decide, by decide, by decide⟩

/-- Settles O56: `ofBufCap` tests `n` against 7, and `BUF_CAP` is `MAX_PAYLOAD + 7` again. -/
theorem bufferBelowSevenIsRefused : Obligations.BufferBelowSevenIsRefused := by
  intro marker ackCode broadcastCode n
  refine ⟨fun hlt => if_pos hlt, fun hle => ⟨⟨marker, ackCode, broadcastCode, n - 7⟩, if_neg hle.not_gt, ?_⟩⟩
  have hcap : n - 7 + 7 = n := Nat.sub_add_cancel hle
  exact ⟨hcap, congrArg (· - 1) hcap, rfl, rfl, rfl, rfl⟩

end Sys2Proof
end

section
/-! PROOFS. One list of everything an input event can do, from which the rules that hold of every step are read: 10_state,
43_transmit_arbiter section 1, 60_exceptions section 3. -/

namespace Sys2Proof.Machine

/-- What an input event can do: every cell of the transition table (43 R170), each branch of an acting cell by itself.
The list bounds the event from above: `unchanged` stands for every hold and drop, and says no more of where they are. -/
inductive Move (s : State) : Instr → State → Prop
  | unchanged {i : Instr} : Move s i s
  | reset : Move s .reset (resetElements (if s.drive then emit (.drive false) s else s))
  | configured (a : Byte) : s.eng ≠ .fault → Move s (.configure a) (setOwnAddr a s)
  | handlerSet : s.eng ≠ .fault → Move s .setHandler (setHandlerFlag s)
  | accepted : s.eng = .deliver → Move s .deliverAccept { s with dlv := none, eng := .idle }
  | tooLarge {i : Instr} : isRequest i = true → s.eng = .idle → Move s i (emit (.txResult .payloadTooLarge) s)
  | requestFaults {i : Instr} : isRequest i = true → s.eng = .idle → Move s i (raise .ownAddrUnset s)
  | requestStarts {i : Instr} (m : Memory) (n : Nat) : isRequest i = true → s.eng = .idle → s.ownSet = true →
      n + 7 ≤ s.params.bufCap → m.read 0 = some s.params.marker → m.writtenTo (n + 7) →
      (s.txBuf.okFor s.params.bufCap → m.okFor s.params.bufCap) →
      Move s i { s with
        txBuf := m, txLen := n + 7, txIdx := 1, drive := true, eng := .txApp,
        out := s.out ++ [.drive true, .sendByte s.params.marker] }
  | stored (b : Byte) : s.eng = .idle → s.rxLen < s.params.accCap →
      Move s (.rxByte b) { s with rxBuf := s.rxBuf.write s.rxLen b, rxLen := s.rxLen + 1 }
  | discarded (b : Byte) : s.eng = .idle → Move s (.rxByte b) { s with rxLen := 0 }
  | candidateFaults : s.eng = .idle →
      Move s (.rxByte s.params.marker) { s with rxLen := 0, faultReason := .ownAddrUnset, eng := .fault }
  | noackFaults (d : Delivery) : s.eng = .idle →
      Move s (.rxByte s.params.marker) { s with rxLen := 0, dlv := some d, faultReason := .noHandler, eng := .fault }
  | noackDelivers (d : Delivery) : s.eng = .idle → s.ownSet = true → s.handlerSet = true →
      Move s (.rxByte s.params.marker) { s with
        rxLen := 0, dlv := some d, out := s.out ++ [.deliver d.src d.cmd d.payload], eng := .deliver }
  | ackStarts (d : Delivery) (m : Memory) : s.eng = .idle → s.ownSet = true →
      m.read 0 = some s.params.marker → m.writtenTo 7 →
      (s.txBuf.okFor s.params.bufCap → m.okFor s.params.bufCap) →
      Move s (.rxByte s.params.marker) { s with
        rxLen := 0, dlv := some d, txBuf := m, txLen := 7, txIdx := 1, drive := true, eng := .txAck,
        out := s.out ++ [.drive true, .sendByte s.params.marker] }
  | sends : Transmitting s.eng → s.txIdx < s.txLen →
      Move s .txDone { s with out := s.out ++ [.sendByte (s.txAt s.txIdx)], txIdx := s.txIdx + 1 }
  | answers : s.eng = .txApp →
      Move s .txDone { s with drive := false, eng := .idle, out := s.out ++ [.drive false, .txResult .ok] }
  | ackFaults : s.eng = .txAck →
      Move s .txDone { s with
        drive := false, faultReason := .noHandler, eng := .fault, out := s.out ++ [.drive false] }
  | ackDelivers (d : Delivery) : s.eng = .txAck → s.handlerSet = true → s.dlv = some d →
      Move s .txDone { s with
        drive := false, eng := .deliver, out := s.out ++ [.drive false, .deliver d.src d.cmd d.payload] }

/-- A buffer that reads as a wire frame begins with `MARKER` and is written over the frame's length. -/
theorem written_of_reads_wireFrame {m n : Memory} {p : Params} {src dst cmd : Byte} {payload : List Byte}
    (hread : ∀ a, m.read a = if a < payload.length + 7 then (wireFrame p src dst cmd payload)[a]? else n.read a) :
    m.read 0 = some p.marker ∧ m.writtenTo (payload.length + 7) := by
  refine ⟨by rw [hread, if_pos (by omega), wireFrame_head], fun a ha => ?_⟩
  rw [hread, if_pos ha]
  simpa using ha

theorem transmitRequest_move {dst cmd : Byte} {payload : List Byte} {i : Instr} {s t : State}
    (hreq : isRequest i = true) (h : transmitRequest dst cmd payload s = .next t) : Move s i t := by
  obtain ⟨-, rfl⟩ | ⟨hidle, -, rfl⟩ | ⟨hidle, -, rfl⟩ | ⟨hidle, hset, hfit, m, rfl, hread, hok⟩ :=
    transmitRequest_next h
  · exact .unchanged
  · exact .tooLarge hreq hidle
  · exact .requestFaults hreq hidle
  · obtain ⟨hhead, hwritten⟩ := written_of_reads_wireFrame hread
    exact .requestStarts m payload.length hreq hidle hset (by omega) hhead hwritten hok

theorem frameBoundary_move {s t : State} (hidle : s.eng = .idle) (h : frameBoundary s = .next t) :
    Move s (.rxByte s.params.marker) t := by
  obtain rfl | rfl | ⟨d, -, -, rfl⟩ | ⟨d, hset, hh, rfl⟩ | ⟨d, m, hset, rfl, hread, hok⟩ := frameBoundary_next h
  · exact .discarded _ hidle
  · exact .candidateFaults hidle
  · exact .noackFaults d hidle
  · exact .noackDelivers d hidle hset hh
  · obtain ⟨hhead, hwritten⟩ := written_of_reads_wireFrame (payload := []) hread
    exact .ackStarts d m hidle hset hhead hwritten hok

theorem execRxByte_move {b : Byte} {s t : State} (h : execRxByte b s = .next t) : Move s (.rxByte b) t := by
  obtain ⟨-, rfl⟩ | ⟨hidle, rfl, hframe⟩ | ⟨hidle, -, hdata⟩ := execRxByte_next h
  · exact .unchanged
  · exact frameBoundary_move hidle hframe
  · obtain ⟨-, rfl⟩ | ⟨hroom, rfl⟩ := accumulate_next hdata
    · exact .discarded b hidle
    · exact .stored b hidle hroom

theorem execTxDone_move {s t : State} (h : execTxDone s = .next t) : Move s .txDone t := by
  obtain ⟨-, rfl⟩ | ⟨htx, hmore, rfl⟩ | ⟨happ, -, rfl⟩ | ⟨hack, -, -, rfl⟩ | ⟨hack, -, hh, d, hd, rfl⟩ :=
    execTxDone_next h
  · exact .unchanged
  · exact .sends htx hmore
  · exact .answers happ
  · exact .ackFaults hack
  · exact .ackDelivers d hack hh hd

/-- Every next state of an input event is on the list. -/
theorem exec_move {i : Instr} {s t : State} (hi : isInput i = true) (h : exec i s = .next t) : Move s i t := by
  obtain ⟨rfl, rfl⟩ | ⟨b, rfl, h⟩ | ⟨rfl, h⟩ | ⟨a, rfl, ⟨hne, rfl⟩ | ⟨-, rfl⟩⟩ | ⟨rfl, ⟨hne, rfl⟩ | ⟨-, rfl⟩⟩ |
    ⟨hreq, dst, cmd, payload, h⟩ | ⟨rfl, ⟨he, rfl⟩ | ⟨-, rfl⟩⟩ := exec_input_next hi h
  · exact .reset
  · exact execRxByte_move h
  · exact execTxDone_move h
  · exact .configured a hne
  · exact .unchanged
  · exact .handlerSet hne
  · exact .unchanged
  · exact transmitRequest_move hreq h
  · exact .accepted he
  · exact .unchanged

theorem taken_of_fetch {s : State} {i : Instr} {rest : List Record} (h : fetch s.eng s.pending = .take i rest) :
    taken s = some i := by
  simp only [taken, h]

theorem step_of_taken {s : State} {i : Instr} (h : taken s = some i) :
    ∃ rest, step s = exec i { s with pending := rest, out := [] } := by
  unfold taken at h
  split at h
  next j rest hfetch =>
    cases h
    exact ⟨rest, by simp only [step, hfetch, beginStep]⟩
  next => cases h

/-- A step waits, or takes an input event that the engine state does not hold and makes one of its moves. -/
theorem step_move {s t : State} (h : step s = .next t) :
    (taken s = none ∧ t = { s with out := [] }) ∨
    ∃ i rest, taken s = some i ∧ isInput i = true ∧ held i s.eng = false ∧
      Move { s with pending := rest, out := [] } i t := by
  obtain ⟨hwaits, rfl⟩ | ⟨i, rest, hfetch, hi, hheld, hx⟩ := step_next h
  · exact .inl ⟨by simp only [taken, hwaits], rfl⟩
  · exact .inr ⟨i, rest, taken_of_fetch hfetch, hi, hheld, exec_move hi hx⟩

/-! ### The parameters, the line and the byte outstanding -/

theorem Move.params_eq {i : Instr} {s t : State} (h : Move s i t) : t.params = s.params := by
  cases h with
  | reset => rw [resetElements_params]; split <;> rfl
  | _ => rfl

/-- Settles O48: no move writes the parameters. -/
theorem parametersNeverChange : Obligations.ParametersNeverChange := by
  intro s t h
  obtain ⟨-, rfl⟩ | ⟨i, rest, -, -, -, hmove⟩ := step_move h
  · rfl
  · exact hmove.params_eq

/-- R27: the moves that change `drive` are those that start a frame, those that end one, and a `RESET` while driving. -/
theorem Move.drive_emitted {i : Instr} {s t : State} (h : Move s i t) (hne : t.drive ≠ s.drive) :
    Output.drive t.drive ∈ t.out := by
  cases h with
  | requestStarts | ackStarts | answers | ackFaults | ackDelivers => simp
  | reset =>
    have hdrive : s.drive = true := by simpa using hne
    simp [hdrive]
  | _ => exact absurd rfl hne

/-- Settles O33: a waiting step keeps `drive`, and a move emits its change. -/
theorem changeOfDriveIsEmitted : Obligations.ChangeOfDriveIsEmitted := by
  intro s t h hne
  obtain ⟨-, rfl⟩ | ⟨i, rest, -, -, -, hmove⟩ := step_move h
  · exact absurd rfl hne
  · exact hmove.drive_emitted hne

/-- R34, R186: what one move hands to the PHY, and that it is then the byte outstanding. -/
def SendsOutstandingByte (s : State) (i : Instr) (t : State) : Prop :=
  t.out.countP Output.isSend ≤ 1 ∧
  ∀ b, Output.sendByte b ∈ t.out →
    Transmitting t.eng ∧ 1 ≤ t.txIdx ∧ t.txAt (t.txIdx - 1) = b ∧
    ((s.eng = .idle ∧ t.txIdx = 1) ∨ (Transmitting s.eng ∧ i = .txDone ∧ t.txIdx = s.txIdx + 1))

/-- The moves that send a byte are a start of a frame, whose byte is the written `MARKER`, and `TX_DONE` with a byte left. -/
theorem Move.sendsOutstandingByte {i : Instr} {s t : State} (h : Move s i t) (hout : s.out = []) :
    SendsOutstandingByte s i t := by
  cases h with
  | requestStarts m n _ hidle _ _ hhead | ackStarts d m hidle _ hhead =>
    refine ⟨by simp [hout, Output.isSend], fun b hb => ?_⟩
    obtain rfl : b = s.params.marker := by simpa [hout] using hb
    exact ⟨by simp [Transmitting], le_rfl, Memory.byteAt_of_read _ hhead, .inl ⟨hidle, rfl⟩⟩
  | sends htx =>
    refine ⟨by simp [hout, Output.isSend], fun b hb => ?_⟩
    obtain rfl : b = s.txAt s.txIdx := by simpa [hout] using hb
    exact ⟨htx, Nat.le_add_left 1 _, rfl, .inr ⟨htx, rfl, rfl⟩⟩
  | reset => cases s.drive <;> simp [SendsOutstandingByte, hout, Output.isSend]
  | _ => simp [SendsOutstandingByte, hout, Output.isSend]

/-- Settles O32: a waiting step has no output, and a move starts from an empty output list. -/
theorem atMostOneByteIsOutstanding : Obligations.AtMostOneByteIsOutstanding := by
  intro s t h
  obtain ⟨-, rfl⟩ | ⟨i, rest, htaken, -, -, hmove⟩ := step_move h
  · simp
  · rw [htaken, Option.some_inj]
    exact hmove.sendsOutstandingByte rfl

/-! ### The engine state -/

/-- In `FAULT` every input event but `RESET` is held (R221). -/
theorem eq_reset_of_not_held_fault {i : Instr} (hi : isInput i = true) (h : held i .fault = false) : i = .reset := by
  cases i <;> simp_all [isInput, held]

/-- Settles O45: a step that takes an event takes one that `FAULT` does not hold. -/
theorem faultIsLeftByResetOnly : Obligations.FaultIsLeftByResetOnly := by
  intro s t hfault h
  obtain ⟨-, rfl⟩ | ⟨i, rest, htaken, hi, hheld, -⟩ := step_move h
  · exact .inl rfl
  · rw [hfault] at hheld
    rw [htaken, eq_reset_of_not_held_fault hi hheld]
    exact .inr rfl

/-- The line is released in every state that R36 admits in which no frame is being sent. -/
theorem BlockInv.not_driving {s : State} (h : BlockInv s) (htx : ¬ Transmitting s.eng) : s.drive = false :=
  Bool.eq_false_iff.2 fun hd => htx (h.drive_iff.1 hd)

/-- Settles O46: one line of the table for each move, those into `FAULT` with the level of the line. -/
theorem engineMovesByTheTransitionTable : Obligations.EngineMovesByTheTransitionTable := by
  intro s t i hi h
  have hfree (hidle : s.eng = .idle) (hinv : BlockInv s) : s.drive = false := hinv.not_driving (by simp [hidle])
  cases exec_move hi h with
  | unchanged | configured | handlerSet | tooLarge | stored | discarded | sends => exact .inl rfl
  | reset => simp
  | accepted he => simp [he]
  | requestStarts m n hreq hidle => simp [hidle, hreq]
  | noackDelivers d hidle | ackStarts d m hidle => simp [hidle]
  | answers he | ackDelivers d he => simp [he]
  | requestFaults hreq hidle => simpa [hidle, hreq] using hfree hidle
  | candidateFaults hidle | noackFaults d hidle => simpa [hidle] using hfree hidle
  | ackFaults he => simp [he]

end Sys2Proof.Machine
end

section
/-! PROOFS. The accumulator fed byte by byte, and the frame boundaries in it: spec/41_codec.md section 3,
spec/42_reassembler.md. -/

namespace Sys2Proof.Machine

/-! ### The byte rows and the address check -/

/-- R143: a full accumulator is emptied, and the byte is not stored. -/
theorem accumulate_of_full {s : State} (b : Byte) (hfull : s.rxLen = s.params.accCap) :
    accumulate b s = .next { s with rxLen := 0 } := if_pos hfull

/-- Settles O12: both rows answer `accumulate` of a full accumulator. -/
theorem overflowDiscardsThePartialFrame : Obligations.OverflowDiscardsThePartialFrame := by
  intro s b hidle hb hfull
  have hdata := (exec_rxByteData_idle hidle hb).trans (accumulate_of_full b hfull)
  exact ⟨(exec_rxByte_data hb).trans hdata, hdata⟩

/-- Settles O19: the same test selects the row in the decoder and in the event. -/
theorem receivedByteRunsItsClassRow : Obligations.ReceivedByteRunsItsClassRow := by
  intro s b
  refine ⟨?marker, fun hb => ⟨if_neg hb, exec_rxByte_data hb⟩⟩
  case marker =>
    rintro rfl
    exact ⟨if_pos rfl, exec_rxByte_marker s⟩

/-- R147 with no own address: the boundary enters `FAULT`, whatever the frame (92 D14). -/
theorem exec_boundary_unset {s : State} {acc : List Byte} {f : Frame} {i : Instr} (hidle : s.eng = .idle)
    (hunset : s.ownSet = false) (hacc : AccumulatorIs s acc) (hdec : decodeFrame (s.params.marker :: acc) = .ok f)
    (hi : i ∈ [Instr.rxByte s.params.marker, .rxByteTerminator]) :
    exec i s = .next { s with rxLen := 0, faultReason := .ownAddrUnset, eng := .fault } := by
  rw [exec_boundary hidle hacc hi, readOwnAddr_unset hunset, judge_none _ hdec]
  rfl

/-- Settles O14: `exec_boundary_elsewhere` with an own address, `exec_boundary_unset` without. -/
theorem addressCheckDiscardsOrFaults : Obligations.AddressCheckDiscardsOrFaults := by
  intro s acc f hidle hacc hdec
  exact ⟨fun hset hdst => ⟨exec_boundary_elsewhere hidle hset hdst hacc hdec (by simp),
      exec_boundary_elsewhere hidle hset hdst hacc hdec (by simp)⟩,
    fun hunset => ⟨exec_boundary_unset hidle hunset hacc hdec (by simp),
      exec_boundary_unset hidle hunset hacc hdec (by simp)⟩⟩

/-! ### Rows outside the condition that selects them -/

theorem cmdClass_addressed {p : Params} {cmd : Byte} (hack : cmd ≠ p.ackCode) (hbroadcast : cmd ≠ p.broadcastCode) :
    cmdClass p cmd = .addressed := by
  rw [cmdClass, if_neg hack, if_neg hbroadcast]

/-- R75: a command's class, by the two reserved codes. -/
theorem cmdClass_eq_iff {p : Params} {cmd : Byte} :
    (cmdClass p cmd = .ack ↔ cmd = p.ackCode) ∧
    (cmdClass p cmd = .noack ↔ cmd ≠ p.ackCode ∧ cmd = p.broadcastCode) ∧
    (cmdClass p cmd = .addressed ↔ cmd ≠ p.ackCode ∧ cmd ≠ p.broadcastCode) := by
  by_cases hack : cmd = p.ackCode
  · simp [cmdClass, hack]
  by_cases hbroadcast : cmd = p.broadcastCode
  · subst hbroadcast
    simp [cmdClass, hack]
  · simp [cmdClass, hack, hbroadcast]

theorem frameSelected_iff {c : CmdClass} {f : Frame} {s : State} :
    frameSelected c f s = true ↔
      s.eng = .idle ∧ s.ownSet = true ∧ f.dst = s.ownAddr ∧ cmdClass s.params f.cmd = c := by
  simp [frameSelected]

/-- Settles O20: each row is an `if` on its condition, and each clause contradicts it. -/
theorem rowsOutsideTheirConditionAreRefused : Obligations.RowsOutsideTheirConditionAreRefused := by
  intro s f d
  obtain ⟨hackIff, hnoackIff, haddressedIff⟩ := cmdClass_eq_iff (p := s.params) (cmd := f.cmd)
  refine ⟨if_pos rfl, fun h => if_neg fun hsel => ?ack, fun h => if_neg fun hsel => ?noack,
    fun h => if_neg fun hsel => ?addressed, fun h => if_neg fun hsel => ?transmitAck⟩
  case ack =>
    obtain ⟨hidle, hset, hdst, hclass⟩ := frameSelected_iff.1 hsel
    simp [hidle, hset, hdst, hackIff.1 hclass] at h
  case noack =>
    obtain ⟨hidle, hset, hdst, hclass⟩ := frameSelected_iff.1 hsel
    obtain ⟨hack, hbroadcast⟩ := hnoackIff.1 hclass
    simp [hidle, hset, hdst, hack, ← hbroadcast] at h
  case addressed =>
    obtain ⟨hidle, hset, hdst, hclass⟩ := frameSelected_iff.1 hsel
    simp [hidle, hset, hdst, haddressedIff.1 hclass] at h
  case transmitAck =>
    obtain ⟨hidle, hdlv⟩ := hsel
    obtain hne | hnone := h
    · exact hne hidle
    · simp [hnone] at hdlv

/-! ### The accumulator -/

/-- An accumulator inside its capacity holds some bytes, written or free (10_state R30). -/
theorem exists_accumulatorIs {s : State} (h : s.rxLen ≤ s.params.accCap) : ∃ acc, AccumulatorIs s acc := by
  refine ⟨(List.range s.rxLen).map s.rxAt, by simp, by simpa using h, fun i hi => ?_⟩
  have hlt : i < s.rxLen := by simpa using hi
  simp [hlt]

theorem accumulatorIs_nil (s : State) : AccumulatorIs { s with rxLen := 0 } [] :=
  ⟨rfl, Nat.zero_le _, fun i hi => by simp at hi⟩

/-- R141: a byte stored at the cursor is the accumulator's last. -/
theorem AccumulatorIs.concat {s : State} {acc : List Byte} (h : AccumulatorIs s acc) (b : Byte)
    (hroom : acc.length < s.params.accCap) :
    AccumulatorIs { s with rxBuf := s.rxBuf.write s.rxLen b, rxLen := s.rxLen + 1 } (acc ++ [b]) := by
  refine ⟨by simp [h.len], by simpa using hroom, fun i hi => ?_⟩
  rw [State.rxAt, Memory.byteAt_write, h.len]
  have hle : i ≤ acc.length := by simpa [Nat.lt_succ_iff] using hi
  obtain rfl | hlt := hle.eq_or_lt
  · simp
  · rw [List.getElem?_append_left hlt, if_neg hlt.ne]
    exact h.bytes i hlt

/-- What received bytes that start no frame leave of a state in `IDLE`: nothing emitted, and this accumulator. -/
structure Heard (s t : State) (acc : List Byte) : Prop where
  idle : t.eng = .idle
  out_eq : t.out = s.out
  params_eq : t.params = s.params
  accumulator : AccumulatorIs t acc

theorem execAll_cons {i : Instr} {s t : State} (h : exec i s = .next t) (is : List Instr) :
    execAll (i :: is) s = execAll is t := by
  simp only [execAll, h]

/-- Data bytes that fit are appended to the accumulator, one after another (R141). -/
theorem execAll_data (bs : List Byte) : ∀ {s : State} {acc : List Byte}, s.eng = .idle → AccumulatorIs s acc →
    (∀ b ∈ bs, b ≠ s.params.marker) → acc.length + bs.length ≤ s.params.accCap →
    ∃ t, execAll (bs.map Instr.rxByte) s = .next t ∧ Heard s t (acc ++ bs) := by
  induction bs with
  | nil => intro s acc hidle hacc _ _; exact ⟨s, rfl, hidle, rfl, rfl, by simpa using hacc⟩
  | cons b bs ih =>
    intro s acc hidle hacc hdata hfit
    rw [List.length_cons] at hfit
    obtain ⟨hb, hbs⟩ := List.forall_mem_cons.1 hdata
    have hroom : acc.length < s.params.accCap := by omega
    have hstore := (exec_rxByte_data hb).trans <| (exec_rxByteData_idle hidle hb).trans <|
      accumulate_of_room (by rwa [hacc.len])
    obtain ⟨t, hrun, ht⟩ := ih (s := { s with rxBuf := s.rxBuf.write s.rxLen b, rxLen := s.rxLen + 1 })
      hidle (hacc.concat b hroom) hbs (by simp only [List.length_append, List.length_singleton]; omega)
    rw [List.append_assoc] at ht
    exact ⟨t, (execAll_cons hstore _).trans hrun, ht.idle, ht.out_eq, ht.params_eq, ht.accumulator⟩

/-- R116, R146: a boundary whose accumulator is too short to be a frame empties it, whatever bytes it holds. -/
theorem exec_marker_of_short {s : State} (hidle : s.eng = .idle) (hshort : s.rxLen ≤ 4) :
    exec (.rxByte s.params.marker) s = .next { s with rxLen := 0 } := by
  obtain ⟨acc, hacc⟩ := exists_accumulatorIs (s := s) (by rw [accCap_eq]; omega)
  have hlen : acc.length < 5 := by rw [← hacc.len]; omega
  exact (undecodableCandidateIsDiscarded s acc _ hidle hacc (decodeFrame_cons_truncated hlen)).1

/-- A start marker and data bytes that fit, fed to an accumulator too short to be a frame, leave those data bytes in it. -/
theorem execAll_marker_data {s : State} {bs : List Byte} (hidle : s.eng = .idle) (hshort : s.rxLen ≤ 4)
    (hdata : ∀ b ∈ bs, b ≠ s.params.marker) (hfit : bs.length ≤ s.params.accCap) :
    ∃ t, execAll ((s.params.marker :: bs).map Instr.rxByte) s = .next t ∧ Heard s t bs := by
  obtain ⟨t, hrun, ht⟩ := execAll_data bs (s := { s with rxLen := 0 }) hidle (accumulatorIs_nil s) hdata
    (by simpa using hfit)
  exact ⟨t, (execAll_cons (exec_marker_of_short hidle hshort) _).trans hrun,
    ht.idle, ht.out_eq, ht.params_eq, ht.accumulator⟩

theorem Heard.candidate_eq {s t : State} {acc : List Byte} (h : Heard s t acc) :
    candidate t = .ok (s.params.marker :: acc) := by
  rw [← h.params_eq]
  exact candidate_of_accumulator h.accumulator

/-! ### The round trip -/

/-- R72: the candidate of a wire frame is the frame without its end marker. -/
theorem dropLast_wireFrame (p : Params) (src dst cmd : Byte) (payload : List Byte) :
    (wireFrame p src dst cmd payload).dropLast = encodeCandidate p ⟨dst, src, cmd, payload⟩ := by
  rw [wireFrame, List.dropLast_append_of_ne_nil (by simp)]
  rfl

theorem dropLast_wireFrame_eq_cons (p : Params) (src dst cmd : Byte) (payload : List Byte) :
    (wireFrame p src dst cmd payload).dropLast = p.marker :: (wireFrame p src dst cmd payload).tail.dropLast := by
  rw [← List.tail_dropLast, dropLast_wireFrame]
  rfl

/-- Settles O9: the start marker clears what stood in the accumulator, the other bytes are data and gather there, and the
candidate they make is the encoded one. -/
theorem fedFrameDecodesToWhatWasEncoded : Obligations.FedFrameDecodesToWhatWasEncoded := by
  intro s src dst cmd payload hidle hshort hfit hdata
  have hlen : (wireFrame s.params src dst cmd payload).tail.dropLast.length ≤ s.params.accCap := by
    rw [accCap_eq, List.length_dropLast, List.length_tail, length_wireFrame]
    omega
  have hdec : decodeFrame (wireFrame s.params src dst cmd payload).dropLast = .ok ⟨dst, src, cmd, payload⟩ := by
    rw [dropLast_wireFrame, decodeFrame_encodeCandidate]
  obtain ⟨t, hrun, ht⟩ := execAll_marker_data hidle hshort hdata hlen
  rw [dropLast_wireFrame_eq_cons] at hdec ⊢
  exact ⟨t, hrun, ht.idle, ht.out_eq, ht.params_eq, ht.candidate_eq, hdec⟩

/-! ### A checksum equal to `MARKER` -/

/-- R157: cut before a checksum equal to `MARKER`, a frame ends in its last payload byte, which is then the claimed checksum;
it is right when the sum without it is the byte itself. -/
theorem decodeFrame_cut {p : Params} {src dst cmd last : Byte} {init : List Byte}
    (hsum : compute (frameBody p src dst cmd (init ++ [last])) = p.marker) :
    decodeFrame (frameBody p src dst cmd (init ++ [last])) =
      if last + last = p.marker then .ok ⟨dst, src, cmd, init⟩ else .error .checksumMismatch := by
  have hsplit : frameBody p src dst cmd (init ++ [last]) = frameBody p src dst cmd init ++ [last] := rfl
  rw [hsplit, compute_concat] at hsum
  have hiff : compute (frameBody p src dst cmd init) = last ↔ last + last = p.marker := by
    rw [← hsum, add_left_inj, eq_comm]
  have hdec := decodeFrame_concat p.marker dst src version cmd init last
  simp only [verify_iff] at hdec
  exact hdec.trans (if_congr hiff rfl rfl)

/-- With no payload the cut frame is shorter than a frame can be (R116). -/
theorem decodeFrame_cut_nil (p : Params) (src dst cmd : Byte) :
    decodeFrame (frameBody p src dst cmd []) = .error .truncated := rfl

theorem Heard.rxOutcome_truncated {s t : State} {acc : List Byte} (h : Heard s t acc)
    (hdec : decodeFrame (s.params.marker :: acc) = .error .truncated) :
    rxOutcome s.params.marker t = some .truncated := by
  rw [← h.params_eq] at hdec ⊢
  rw [rxOutcome_of_accumulator h.accumulator, judge_truncated _ _ hdec]
  rfl

theorem Heard.rxOutcome_mismatch {s t : State} {acc : List Byte} (h : Heard s t acc)
    (hdec : decodeFrame (s.params.marker :: acc) = .error .checksumMismatch) :
    rxOutcome s.params.marker t = some .checksumMismatch := by
  rw [← h.params_eq] at hdec ⊢
  rw [rxOutcome_of_accumulator h.accumulator, judge_checksumMismatch _ _ hdec]
  rfl

/-- R146: two terminators after an accumulator that does not decode discard it and then the empty one. -/
theorem Heard.two_markers {s t : State} {acc : List Byte} {e : DecodeError} (h : Heard s t acc)
    (hdec : decodeFrame (s.params.marker :: acc) = .error e) :
    execAll [.rxByte s.params.marker, .rxByte s.params.marker] t = .next { t with rxLen := 0 } := by
  rw [← h.params_eq] at hdec ⊢
  have hfirst := (undecodableCandidateIsDiscarded t acc e h.idle h.accumulator hdec).1
  have hsecond := exec_marker_of_short (s := { t with rxLen := 0 }) h.idle (Nat.zero_le 4)
  rw [execAll_cons hfirst, execAll_cons hsecond]
  rfl

theorem Heard.clear {s t : State} {acc : List Byte} (h : Heard s t acc) : Heard s { t with rxLen := 0 } [] :=
  ⟨h.idle, h.out_eq, h.params_eq, accumulatorIs_nil t⟩

/-- Settles O10: the fed bytes are the frame's body, which `decodeFrame_cut` decodes. -/
theorem markerChecksumShortensTheFrame : Obligations.MarkerChecksumShortensTheFrame := by
  intro s src dst cmd payload hidle hshort hfit hsum hdata
  have hlen : (frameBody s.params src dst cmd payload).tail.length ≤ s.params.accCap := by
    rw [accCap_eq, List.length_tail, length_frameBody]
    omega
  obtain ⟨t, hrun, ht⟩ := execAll_marker_data hidle hshort hdata hlen
  refine ⟨t, hrun, ht.idle, ht.out_eq, ht.params_eq, ht.candidate_eq, ?noPayload,
    fun init last hpayload => ⟨fun hdouble => ?short, fun hdouble => ?mismatch⟩,
    fun hno => ⟨?discarded, ?thenEmpty⟩⟩
  case noPayload =>
    rintro rfl
    exact ht.rxOutcome_truncated (decodeFrame_cut_nil _ _ _ _)
  case short =>
    subst hpayload
    rw [decodeFrame_cut hsum, if_pos hdouble]
  case mismatch =>
    subst hpayload
    exact ht.rxOutcome_mismatch ((decodeFrame_cut hsum).trans (if_neg hdouble))
  case discarded =>
    obtain rfl | ⟨init, last, rfl⟩ := payload.eq_nil_or_concat'
    · exact ht.two_markers (decodeFrame_cut_nil _ _ _ _)
    · exact ht.two_markers ((decodeFrame_cut hsum).trans (if_neg (hno init last rfl)))
  case thenEmpty => exact ht.clear.rxOutcome_truncated (decodeFrame_cons_truncated (by simp))

end Sys2Proof.Machine
end

section
/-! PROOFS. The start of a frame, and its bytes in order: spec/43_transmit_arbiter.md sections 2, 3 and 6. -/

namespace Sys2Proof.Machine

/-! ### The start of a frame -/

/-- R172, R175, R185: the buffer in which a frame stands when it starts. Only the parameters, the own address and the buffer
before decide it, so it is one for all states that agree in those. -/
theorem exists_frame_started (s : State) (dst cmd : Byte) {payload : List Byte}
    (hfit : payload.length + 7 ≤ s.params.bufCap) :
    ∃ m, (∀ a < payload.length + 7, m.read a = (wireFrame s.params s.ownAddr dst cmd payload)[a]?) ∧
      (∀ a, payload.length + 7 ≤ a → m.read a = s.txBuf.read a) ∧
      ∀ (mode : Engine) (u : State), u.params = s.params → u.ownSet = true → u.ownAddr = s.ownAddr →
        u.txBuf = s.txBuf → startEncoded mode u (encodeFitting dst cmd payload u) = .next { u with
          txBuf := m, txLen := payload.length + 7, txIdx := 1, drive := true, eng := mode,
          out := u.out ++ [.drive true, .sendByte s.params.marker] } := by
  obtain ⟨m, hwrite, hread, -⟩ := bufWriteMany_spec (cap := s.params.bufCap)
    (wireFrame s.params s.ownAddr dst cmd payload) s.txBuf 0 (by simpa using hfit)
  simp only [length_wireFrame, Nat.zero_le, true_and, Nat.zero_add, Nat.sub_zero] at hread
  have hframe : ∀ a < payload.length + 7, m.read a = (wireFrame s.params s.ownAddr dst cmd payload)[a]? :=
    fun a ha => by rw [hread, if_pos ha]
  have hhead : m.read 0 = some s.params.marker := hframe 0 (by omega)
  refine ⟨m, hframe, fun a ha => by rw [hread, if_neg ha.not_gt], fun mode u hparams huset haddr hbuf => ?_⟩
  have hencode : encodeFitting dst cmd payload u = .ok { u with txBuf := m, txLen := payload.length + 7 } := by
    simp only [encodeFitting, readOwnAddr_set huset, hparams, haddr, hbuf, hwrite]
  rw [hencode, startEncoded,
    startTx_of_byte (s := { u with txBuf := m, txLen := payload.length + 7 }) mode (Memory.byteAt_of_read _ hhead)]

theorem exec_transmit_idle {s : State} {dst cmd : Byte} {payload : List Byte} (hidle : s.eng = .idle) :
    exec (.transmit dst cmd payload) s = startEncoded .txApp s (encodeFrame dst cmd payload s) := by
  simp only [exec, execTransmit, transmitRequest, hidle]

/-- R172: in `IDLE` a request that fits is encoded and started. -/
theorem exec_transmit_fitting {s : State} {dst cmd : Byte} {payload : List Byte} (hidle : s.eng = .idle)
    (hfit : 6 + payload.length < s.params.bufCap) :
    exec (.transmit dst cmd payload) s = startEncoded .txApp s (encodeFitting dst cmd payload s) := by
  rw [exec_transmit_idle hidle, encodeFrame_fitting dst cmd hfit]

/-- Settles O21: `encode` fails its size check, and its failure is answered at once. -/
theorem oversizedTransmitIsAnswered : Obligations.OversizedTransmitIsAnswered := by
  intro s dst cmd payload hidle hlarge
  rw [exec_transmit_idle hidle, encodeFrame_tooLarge dst cmd hlarge]
  rfl

/-- R113: with no own address the request enters `FAULT`. -/
theorem exec_transmit_unset {s : State} {dst cmd : Byte} {payload : List Byte} (hidle : s.eng = .idle)
    (hunset : s.ownSet = false) (hfit : 6 + payload.length < s.params.bufCap) :
    exec (.transmit dst cmd payload) s = .next (raise .ownAddrUnset s) := by
  rw [exec_transmit_fitting hidle hfit, encodeFitting_unset hunset]
  rfl

/-- Settles O22: `exists_frame_started` with an own address, `exec_transmit_unset` without. -/
theorem transmitStartsTheFrame : Obligations.TransmitStartsTheFrame := by
  intro s dst cmd payload hidle hfit
  refine ⟨fun hset => ?_, fun hunset => exec_transmit_unset hidle hunset hfit⟩
  obtain ⟨m, hframe, hrest, hstart⟩ := exists_frame_started s dst cmd (payload := payload) (by omega)
  exact ⟨m, (exec_transmit_fitting hidle hfit).trans (hstart .txApp s rfl hset rfl rfl), wireFrameAt_of_reads hframe, hrest⟩

/-- An empty payload always fits, because `BUF_CAP` is at least 7 (00_scope R9). -/
theorem empty_fits (p : Params) : 6 + ([] : List Byte).length < p.bufCap := bufCap_pos p

/-- Settles O23: both requests call one operation, and an empty payload fits. -/
theorem transmitErrorSendsAnEmptyFrame : Obligations.TransmitErrorSendsAnEmptyFrame := by
  intro s dst code
  exact ⟨rfl, fun hidle hset => (transmitStartsTheFrame s dst code [] hidle (empty_fits s.params)).1 hset⟩

/-- Settles O24: the row's condition holds, and `transmit_ack` encodes and starts. -/
theorem transmitAckStartsTheAckFrame : Obligations.TransmitAckStartsTheAckFrame := by
  intro s d hidle hdlv hset
  obtain ⟨m, hframe, hrest, hstart⟩ :=
    exists_frame_started s d s.params.ackCode (payload := []) (bufCap_pos s.params)
  have hrow : exec (.transmitAck d) s = transmitAck d s := if_pos ⟨hidle, hdlv⟩
  exact ⟨m, hrow.trans (hstart .txAck s rfl hset rfl rfl), wireFrameAt_of_reads hframe, hrest⟩

/-! ### The ACK of an addressed frame -/

section Addressed

variable {s : State} {f : Frame} (hidle : s.eng = .idle) (hset : s.ownSet = true) (hdst : f.dst = s.ownAddr)
  (hclass : cmdClass s.params f.cmd = .addressed)
include hidle hset hdst hclass

/-- R150: the row captures the delivery and transmits the ACK. -/
theorem execFrameAddressed_selected : execFrameAddressed f s = transmitAck f.src (capture f s) :=
  if_pos (frameSelected_of_class hidle hset hdst hclass)

/-- A boundary whose candidate is an addressed frame for this node runs the row with the cursor reset. -/
theorem exec_boundary_addressed {acc : List Byte} {i : Instr} (hacc : AccumulatorIs s acc)
    (hdec : decodeFrame (s.params.marker :: acc) = .ok f)
    (hi : i ∈ [Instr.rxByte s.params.marker, .rxByteTerminator]) :
    exec i s = execFrameAddressed f { s with rxLen := 0 } := by
  rw [exec_boundary_here hidle hset hdst hacc hdec hi, hclass]
  rfl

/-- R150, R175: what the row leaves, with one buffer `m` for every length of the accumulator. -/
theorem exists_ack_started :
    ∃ m, (∀ a < 7, m.read a = (wireFrame s.params s.ownAddr f.src s.params.ackCode [])[a]?) ∧
      (∀ a, 7 ≤ a → m.read a = s.txBuf.read a) ∧
      ∀ n, execFrameAddressed f { s with rxLen := n } = .next { s with
        rxLen := n, dlv := some ⟨f.src, f.cmd, f.payload⟩, txBuf := m, txLen := 7, txIdx := 1, drive := true,
        eng := .txAck, out := s.out ++ [.drive true, .sendByte s.params.marker] } := by
  obtain ⟨m, hframe, hrest, hstart⟩ :=
    exists_frame_started s f.src s.params.ackCode (payload := []) (bufCap_pos s.params)
  refine ⟨m, hframe, hrest, fun n => ?_⟩
  rw [execFrameAddressed_selected (s := { s with rxLen := n }) hidle hset hdst hclass]
  exact hstart .txAck (capture f { s with rxLen := n }) rfl hset rfl rfl

end Addressed

/-- Settles O17: the row, and the boundary that runs it with the cursor reset, start the same ACK. -/
theorem addressedFrameStartsItsAck : Obligations.AddressedFrameStartsItsAck := by
  intro s f hidle hset hdst hack hbroadcast
  have hclass := cmdClass_addressed hack hbroadcast
  obtain ⟨m, hframe, hrest, hrow⟩ := exists_ack_started hidle hset hdst hclass
  refine ⟨m, wireFrameAt_of_reads hframe, hrest, hrow s.rxLen, fun acc hacc hdec i hi => ?_⟩
  rw [exec_boundary_addressed hidle hset hdst hclass hacc hdec hi, hrow 0]

/-! ### One `TX_DONE` per byte -/

theorem exec_txDone_txApp_of_lt {s : State} (happ : s.eng = .txApp) (hmore : s.txIdx < s.txLen) :
    exec .txDone s = sendNext s := by
  simp only [exec, execTxDone, happ, if_pos hmore]

/-- Settles O25: with a byte left the row is `sendNext`. -/
theorem txDoneSendsTheNextByte : Obligations.TxDoneSendsTheNextByte := by
  intro s happ hmore hcap
  rw [exec_txDone_txApp_of_lt happ hmore, sendNext_in_range hcap]

/-- Settles O26: with no byte left the row releases the line and answers. -/
theorem lastTxDoneAnswersTheRequest : Obligations.LastTxDoneAnswersTheRequest := by
  intro s happ hsent
  simp only [exec, execTxDone, happ, if_neg hsent.not_gt]
  simp [emit, setDrive]

theorem exec_txDone_of_lt {s : State} (htx : Transmitting s.eng) (hmore : s.txIdx < s.txLen)
    (hcap : s.txIdx < s.params.bufCap) :
    exec .txDone s = .next { s with txIdx := s.txIdx + 1, out := s.out ++ [.sendByte (s.txAt s.txIdx)] } := by
  obtain happ | hack := htx
  · exact txDoneSendsTheNextByte s happ hmore hcap
  · exact (txDoneInTxAckSendsOrDelivers s hack).1 hmore hcap

/-- R186: while transmitting, one `TX_DONE` for each of the bytes left sends them in order. -/
theorem execAll_txDone_sends (bs : List Byte) : ∀ {s : State}, Transmitting s.eng → s.txIdx + bs.length ≤ s.txLen →
    s.txLen ≤ s.params.bufCap → (∀ j < bs.length, s.txBuf.read (s.txIdx + j) = bs[j]?) →
    execAll (List.replicate bs.length .txDone) s = .next { s with
      txIdx := s.txIdx + bs.length, out := s.out ++ bs.map Output.sendByte } := by
  induction bs with
  | nil => intro s _ _ _ _; simp [execAll]
  | cons b bs ih =>
    intro s htx hlen hcap hread
    rw [List.length_cons] at hlen hread
    have hb : s.txAt s.txIdx = b := Memory.byteAt_of_read _ (hread 0 (by omega))
    have hfirst := exec_txDone_of_lt htx (by omega) (by omega)
    rw [hb] at hfirst
    have hrest := ih (s := { s with txIdx := s.txIdx + 1, out := s.out ++ [.sendByte b] }) htx
      (by simp only; omega) hcap fun j hj => by
        rw [Nat.add_assoc, Nat.add_comm 1 j, hread (j + 1) (by omega), List.getElem?_cons_succ]
    rw [List.length_cons, List.replicate_succ, execAll_cons hfirst, hrest]
    simp [Nat.add_assoc, Nat.add_comm 1]

theorem execAll_append {is js : List Instr} {s t : State} (h : execAll is s = .next t) :
    execAll (is ++ js) s = execAll js t := by
  induction is generalizing s with
  | nil => cases h; rfl
  | cons i is ih =>
    cases hi : exec i s with
    | next u =>
      rw [execAll_cons hi] at h
      rw [List.cons_append, execAll_cons hi, ih h]
    | fault | refused => simp [execAll, hi] at h

/-- R186, R187: a frame of `n` bytes just started, with one `TX_DONE` for each of its bytes but the last. -/
theorem execAll_txDone_frame {s : State} {src dst cmd : Byte} {payload : List Byte} {o : List Output}
    (htx : Transmitting s.eng) (hidx : s.txIdx = 1) (hlen : s.txLen = payload.length + 7)
    (hfit : payload.length + 7 ≤ s.params.bufCap)
    (hread : ∀ a < payload.length + 7, s.txBuf.read a = (wireFrame s.params src dst cmd payload)[a]?)
    (hout : s.out = o ++ [.drive true, .sendByte s.params.marker]) :
    execAll (List.replicate (payload.length + 6) .txDone) s = .next { s with
      txIdx := payload.length + 7,
      out := o ++ [.drive true] ++ (wireFrame s.params src dst cmd payload).map Output.sendByte } := by
  have hcons : wireFrame s.params src dst cmd payload =
      s.params.marker :: (wireFrame s.params src dst cmd payload).tail := rfl
  have htail : (wireFrame s.params src dst cmd payload).tail.length = payload.length + 6 := by
    rw [List.length_tail, length_wireFrame, Nat.add_succ_sub_one]
  have hrun := execAll_txDone_sends (wireFrame s.params src dst cmd payload).tail htx (by omega) (by omega)
    fun j hj => by rw [hidx, Nat.add_comm 1 j, hread _ (by omega), List.getElem?_tail]
  rw [htail, hout, hidx] at hrun
  rw [hrun, hcons]
  simp [Nat.add_comm 1]

/-- Settles O28: the start, the frame's other bytes, and the last `TX_DONE`. -/
theorem transmitSendsTheWireFrameInOrder : Obligations.TransmitSendsTheWireFrameInOrder := by
  intro s dst cmd payload hidle hset hfit
  have hcap : payload.length + 7 ≤ s.params.bufCap := by omega
  obtain ⟨m, hframe, hrest, hstart⟩ := exists_frame_started s dst cmd hcap
  refine ⟨m, ?_, wireFrameAt_of_reads hframe, hrest⟩
  have hfirst := (exec_transmit_fitting hidle hfit).trans (hstart .txApp s rfl hset rfl rfl)
  have hbytes := execAll_txDone_frame (s := { s with
    txBuf := m, txLen := payload.length + 7, txIdx := 1, drive := true, eng := .txApp,
    out := s.out ++ [.drive true, .sendByte s.params.marker] }) (.inl rfl) rfl rfl hcap hframe rfl
  rw [execAll_cons hfirst, List.replicate_succ', execAll_append hbytes,
    execAll_cons (lastTxDoneAnswersTheRequest _ rfl le_rfl)]
  simp [execAll, hidle]

/-- Settles O29: the boundary starts the ACK, six `TX_DONE`s send its other bytes, and the seventh offers the delivery. -/
theorem addressedFrameIsAckedThenDelivered : Obligations.AddressedFrameIsAckedThenDelivered := by
  intro s acc f hidle hset hh hacc hdec hdst hack hbroadcast
  have hclass := cmdClass_addressed hack hbroadcast
  obtain ⟨m, hframe, hrest, hrow⟩ := exists_ack_started hidle hset hdst hclass
  refine ⟨m, ?_, wireFrameAt_of_reads hframe, hrest⟩
  have hfirst := (exec_boundary_addressed hidle hset hdst hclass hacc hdec List.mem_cons_self).trans (hrow 0)
  have hbytes := execAll_txDone_frame (payload := []) (s := { s with
    rxLen := 0, dlv := some ⟨f.src, f.cmd, f.payload⟩, txBuf := m, txLen := 7, txIdx := 1, drive := true,
    eng := .txAck, out := s.out ++ [.drive true, .sendByte s.params.marker] })
    (.inr rfl) rfl rfl (bufCap_pos s.params) hframe rfl
  rw [execAll_cons hfirst, List.replicate_succ' (n := 6), execAll_append (is := List.replicate 6 .txDone) hbytes]
  refine (execAll_cons ((txDoneInTxAckSendsOrDelivers _ rfl).2.1 ⟨f.src, f.cmd, f.payload⟩ le_rfl ?_ rfl) []).trans ?_
  · exact hh
  · simp [execAll]

end Sys2Proof.Machine
end

section
/-! PROOFS. Delivery, configuration, reset and the output rows: spec/43_transmit_arbiter.md sections 4 and 5,
spec/70_reset_and_hazards.md section 1, spec/30_encoding.md section 5; and the cells of the transition table that drop. -/

namespace Sys2Proof.Machine

/-- Settles O34: the arm of `DELIVER` alone acts. -/
theorem deliverAcceptEndsTheDelivery : Obligations.DeliverAcceptEndsTheDelivery := by
  intro s he
  simp only [exec, execDeliverAccept, he]

/-- Settles O35: the four engine states other than `FAULT` have the same arm. -/
theorem configureSetsTheOwnAddress : Obligations.ConfigureSetsTheOwnAddress := by
  intro s a hne
  unfold exec execConfigure
  cases he : s.eng with
  | fault => exact absurd he hne
  | idle | txApp | txAck | deliver => simp only [setOwnAddr, he]

/-- Settles O36: the four engine states other than `FAULT` have the same arm. -/
theorem setHandlerSetsItsFlag : Obligations.SetHandlerSetsItsFlag := by
  intro s hne
  unfold exec execSetHandler
  cases he : s.eng with
  | fault => exact absurd he hne
  | idle | txApp | txAck | deliver => simp only [setHandlerFlag, he]

/-- Settles O37: only the outputs depend on the line's level. -/
theorem resetIsAcceptedInEveryState : Obligations.ResetIsAcceptedInEveryState := by
  intro s
  refine ⟨_, rfl, ?_⟩
  cases s.drive <;> simp [State.rxAt, State.txAt]

/-- Settles O38: the reset state's fields, and its buffers, in which nothing is written. -/
theorem resetStateHasTheGivenValues : Obligations.ResetStateHasTheGivenValues :=
  ⟨rfl, rfl, rfl, rfl, rfl, rfl, rfl, rfl, fun _ => ⟨rfl, rfl⟩⟩

/-- Settles O39: each row is one `emit`. -/
theorem outputRowsAppendTheirEvent : Obligations.OutputRowsAppendTheirEvent :=
  fun _ _ _ _ _ _ _ => ⟨rfl, rfl, rfl, rfl⟩

/-- R152, R153: a received byte is dropped while transmitting, by the event and by either row. -/
theorem received_dropped {s : State} (b : Byte) (htx : Transmitting s.eng) :
    exec .rxByteTerminator s = .next s ∧ (b ≠ s.params.marker → exec (.rxByteData b) s = .next s) := by
  obtain he | he := htx <;>
    exact ⟨by simp only [exec, execRxByteTerminator, he, drop],
      fun hb => by simp only [exec, execRxByteData, if_neg hb, he, drop]⟩

/-- Settles O40: each cell is a `drop`. -/
theorem droppedEventsHaveNoEffect : Obligations.DroppedEventsHaveNoEffect := by
  intro s b
  refine ⟨fun htx => ?received, fun he => ?txDone, fun he => ?accept⟩
  case received =>
    obtain ⟨hterminator, hdata⟩ := received_dropped b htx
    refine ⟨?_, hterminator, hdata⟩
    by_cases hb : b = s.params.marker
    · rw [hb, exec_rxByte_marker, hterminator]
    · rw [exec_rxByte_data hb, hdata hb]
  case txDone => obtain he | he := he <;> simp only [exec, execTxDone, he, drop]
  case accept => obtain he | he | he := he <;> simp only [exec, execDeliverAccept, he, drop]

end Sys2Proof.Machine
end

section
/-! PROOFS. The event a step takes, and the cells of the transition table that hold: spec/00_scope.md section 4,
spec/20_memory.md section 3, spec/60_exceptions.md section 3. -/

namespace Sys2Proof.Machine

/-- Held records before the others do not change that nothing is taken (R14, R231). -/
theorem fetch_append_of_held {e : Engine} {rs : List Record} {x : Fetch} (hx : fetch e rs = x)
    (hne : ∀ i rest, x ≠ .take i rest) (before : List Record)
    (hheld : ∀ q ∈ before, ∃ j, decodeInput q = .ok j ∧ held j e = true) : fetch e (before ++ rs) = x := by
  induction before with
  | nil => exact hx
  | cons q qs ih =>
    obtain ⟨⟨j, hj, hh⟩, hqs⟩ := List.forall_mem_cons.1 hheld
    simp only [List.cons_append, fetch, hj, hh, if_true, ih hqs]
    cases x with
    | take i rest => exact absurd rfl (hne i rest)
    | waits | reject => rfl

/-- Settles O42: every record is before the end of the list. -/
theorem stepWaitsWhileEveryEventIsHeld : Obligations.StepWaitsWhileEveryEventIsHeld := by
  intro s hheld
  have hwaits := fetch_append_of_held (rs := []) (x := .waits) rfl (by simp) s.pending hheld
  rw [List.append_nil] at hwaits
  simp only [step, hwaits, beginStep]

/-- Settles O43: `fetch_take` names the event and what stays pending. -/
theorem stepRunsTheFirstEventNotHeld : Obligations.StepRunsTheFirstEventNotHeld := by
  intro s before after r i hpending hheld hr hi
  simp only [step, hpending, fetch_take hr hi after before hheld, beginStep]

/-- R85: a tag above 7 is no input event's. -/
theorem decodeInput_of_tag_gt {tag : Nat} (htag : 7 < tag) (fields : List Nat) :
    ∃ why, decodeInput (tag :: fields) = .error why := by
  simp only [decodeInput, if_neg htag.not_ge]
  split
  · exact ⟨_, rfl⟩
  · exact ⟨_, rfl⟩

/-- Settles O44: the record after the held ones is rejected, and so is the step. -/
theorem stepRefusesWhatIsNoEvent : Obligations.StepRefusesWhatIsNoEvent := by
  intro s before after tag fields htag hpending hheld
  obtain ⟨why, hwhy⟩ := decodeInput_of_tag_gt htag fields
  have hreject : fetch s.eng ((tag :: fields) :: after) = .reject why := by simp only [fetch, hwhy]
  have hfetch := fetch_append_of_held hreject (by simp) before hheld
  exact ⟨why, hwhy, by simp only [step, hpending, hfetch]⟩

theorem held_fault_of_ne_reset {i : Instr} (hi : isInput i = true) (hne : i ≠ .reset) : held i .fault = true := by
  by_contra h
  exact hne (eq_reset_of_not_held_fault hi (by simpa using h))

/-- A request is held outside `IDLE` (R173). -/
theorem held_of_isRequest {i : Instr} (hreq : isRequest i = true) (e : Engine) : held i e = decide (e ≠ .idle) := by
  cases i with
  | transmit | transmitError => rfl
  | _ => cases hreq

/-- Settles O41: each of the three cells is one of `held`'s, so the event changes nothing and the step waits. -/
theorem heldEventsStayPending : Obligations.HeldEventsStayPending := by
  intro s r i hpending hr hcell
  have hi := decodeInput_isInput hr
  have hheld : held i s.eng = true := by
    obtain ⟨b, rfl, he⟩ | ⟨hreq, he⟩ | ⟨hne, he⟩ := hcell
    · exact decide_eq_true he
    · rw [held_of_isRequest hreq]
      exact decide_eq_true he
    · rw [he]
      exact held_fault_of_ne_reset hi hne
  refine ⟨exec_of_held hi hheld, stepWaitsWhileEveryEventIsHeld s fun q hq => ?_⟩
  rw [hpending, List.mem_singleton] at hq
  exact ⟨i, hq ▸ hr, hheld⟩

end Sys2Proof.Machine
end

section
/-! PROOFS. Who writes which element: spec/10_state.md section 8. -/

namespace Sys2Proof.Machine

/-- R39: what a row other than `RESET` leaves as it was, by the row's kind. -/
def KeepsOthersElements (s : State) (i : Instr) (t : State) : Prop :=
  t.resets = s.resets ∧
  (isReceive i = false → t.rxBuf = s.rxBuf ∧ t.rxLen = s.rxLen) ∧
  (isTransmitPath i = false → t.txBuf = s.txBuf ∧ t.txLen = s.txLen ∧ t.txIdx = s.txIdx) ∧
  ((∀ a, i ≠ .configure a) → t.ownAddr = s.ownAddr ∧ t.ownSet = s.ownSet) ∧
  (i ≠ .setHandler → t.handlerSet = s.handlerSet)

theorem isTransmitPath_of_isRequest {i : Instr} (hreq : isRequest i = true) : isTransmitPath i = true := by
  cases i with
  | transmit | transmitError => rfl
  | _ => cases hreq

theorem Move.keepsOthersElements {i : Instr} {s t : State} (h : Move s i t) (hne : i ≠ .reset) :
    KeepsOthersElements s i t := by
  cases h with
  | reset => exact absurd rfl hne
  | requestStarts _ _ hreq => simp [KeepsOthersElements, isTransmitPath_of_isRequest hreq]
  | _ => simp [KeepsOthersElements, isReceive, isTransmitPath]

theorem execRxByteData_next {b : Byte} {s t : State} (h : execRxByteData b s = .next t) :
    t = s ∨ accumulate b s = .next t := by
  unfold execRxByteData at h
  split at h
  · cases h
  · cases he : s.eng with
    | idle => rw [he] at h; exact .inr h
    | _ => rw [he] at h; cases h; exact .inl rfl

/-- Everything `transmit_ack` can do (R175). -/
theorem transmitAck_next {d : Byte} {s t : State} (h : transmitAck d s = .next t) :
    t = raise .ownAddrUnset s ∨
    ∃ m, t = { s with
      txBuf := m, txLen := 7, txIdx := 1, drive := true, eng := .txAck,
      out := s.out ++ [.drive true, .sendByte s.params.marker] } := by
  obtain ⟨-, rfl⟩ | ⟨-, m, rfl, -⟩ := startEncoded_fitting_next (payload := []) (bufCap_pos s.params) h
  · exact .inl rfl
  · exact .inr ⟨m, rfl⟩

/-- Settles O47: an input event by its move; a byte, frame, internal or output row by the operation it runs. -/
theorem eachElementHasItsWriter : Obligations.EachElementHasItsWriter := by
  intro s t i h hne
  change KeepsOthersElements s i t
  cases i with
  | reset | rxByte | txDone | configure | setHandler | transmit | transmitError | deliverAccept =>
    exact (exec_move rfl h).keepsOthersElements hne
  | rxByteTerminator =>
    rw [← exec_rxByte_marker] at h
    obtain ⟨hresets, -, -, hown, hhandler⟩ := (exec_move rfl h).keepsOthersElements (by simp)
    exact ⟨hresets, nofun, nofun, fun _ => hown (by simp), fun _ => hhandler (by simp)⟩
  | rxByteData b =>
    obtain rfl | h := execRxByteData_next h
    · simp [KeepsOthersElements]
    · obtain ⟨-, rfl⟩ | ⟨-, rfl⟩ := accumulate_next h <;> simp [KeepsOthersElements, isReceive]
  | frameAck f =>
    simp only [exec, execFrameAck] at h
    split at h
    · cases h
      simp [KeepsOthersElements]
    · cases h
  | frameNoack f =>
    simp only [exec, execFrameNoack] at h
    split at h
    · obtain ⟨-, rfl⟩ | ⟨-, d, -, rfl⟩ := enterDeliver_next h <;> simp [KeepsOthersElements]
    · cases h
  | frameAddressed f =>
    simp only [exec, execFrameAddressed] at h
    split at h
    · obtain rfl | ⟨m, rfl⟩ := transmitAck_next h <;> simp [KeepsOthersElements, isTransmitPath]
    · cases h
  | transmitAck d =>
    simp only [exec, execTransmitAck] at h
    split at h
    · obtain rfl | ⟨m, rfl⟩ := transmitAck_next h <;> simp [KeepsOthersElements, isTransmitPath]
    · cases h
  | drive | sendByte | deliver | txResult =>
    cases h
    simp [KeepsOthersElements]

end Sys2Proof.Machine
end

section
/-! PROOFS. The invariant, kept by every move: spec/10_state.md section 5, spec/20_memory.md section 1. -/

namespace Sys2Proof.Machine

/-! ### R36, for each engine state by itself -/

theorem BlockInv.of_idle {s : State} (he : s.eng = .idle) (hdrive : s.drive = false) (hdlv : s.dlv = none)
    (hlen : s.rxLen ≤ s.params.accCap) : BlockInv s where
  drive_iff := by simp [he, hdrive]
  tx_bounds := by simp [he]
  ack_frame := by simp [he]
  offered := by simp [he]
  none_due := fun _ => hdlv
  rx_bound := hlen
  own_known := fun hne => absurd he hne

theorem BlockInv.of_fault {s : State} (he : s.eng = .fault) (hdrive : s.drive = false)
    (hlen : s.rxLen ≤ s.params.accCap) : BlockInv s where
  drive_iff := by simp [he, hdrive]
  tx_bounds := by simp [he]
  ack_frame := by simp [he]
  offered := by simp [he]
  none_due := by simp [he]
  rx_bound := hlen
  own_known := fun _ hne => absurd he hne

theorem BlockInv.of_deliver {s : State} (he : s.eng = .deliver) (hdrive : s.drive = false)
    (hdlv : s.dlv.isSome = true) (hhandler : s.handlerSet = true) (hown : s.ownSet = true)
    (hlen : s.rxLen ≤ s.params.accCap) : BlockInv s where
  drive_iff := by simp [he, hdrive]
  tx_bounds := by simp [he]
  ack_frame := by simp [he]
  offered := fun _ => ⟨hdlv, hhandler⟩
  none_due := by simp [he]
  rx_bound := hlen
  own_known := fun _ _ => hown

theorem Transmitting.ne_others {e : Engine} (h : Transmitting e) : e ≠ .idle ∧ e ≠ .deliver ∧ e ≠ .fault := by
  obtain rfl | rfl := h <;> simp

theorem BlockInv.of_transmitting {s : State} (he : Transmitting s.eng) (hdrive : s.drive = true)
    (hbounds : 7 ≤ s.txLen ∧ s.txLen ≤ s.params.bufCap ∧ 1 ≤ s.txIdx ∧ s.txIdx ≤ s.txLen)
    (happ : s.eng = .txApp → s.dlv = none) (hack : s.eng = .txAck → s.txLen = 7 ∧ s.dlv.isSome = true)
    (hown : s.ownSet = true) (hlen : s.rxLen ≤ s.params.accCap) : BlockInv s where
  drive_iff := by simp [he, hdrive]
  tx_bounds := fun _ => hbounds
  ack_frame := hack
  offered := fun hd => absurd hd (Transmitting.ne_others he).2.1
  none_due := fun h => h.elim (fun hi => absurd hi (Transmitting.ne_others he).1) happ
  rx_bound := hlen
  own_known := fun _ _ => hown

/-- The block's seven invariants survive every move; each case is the invariant of the engine state it leads to. -/
theorem Move.keeps_blockInv {i : Instr} {s t : State} (h : Move s i t) (hs : BlockInv s) : BlockInv t := by
  have hfree (hidle : s.eng = .idle) : s.drive = false := hs.not_driving (by simp [hidle])
  have hnone (hidle : s.eng = .idle) : s.dlv = none := hs.none_due (.inl hidle)
  cases h with
  | unchanged => exact hs
  | reset => exact .of_idle rfl rfl rfl (Nat.zero_le _)
  | configured a =>
    exact ⟨hs.drive_iff, hs.tx_bounds, hs.ack_frame, hs.offered, hs.none_due, hs.rx_bound, fun _ _ => rfl⟩
  | handlerSet =>
    exact ⟨hs.drive_iff, hs.tx_bounds, hs.ack_frame, fun he => ⟨(hs.offered he).1, rfl⟩, hs.none_due, hs.rx_bound,
      hs.own_known⟩
  | accepted he => exact .of_idle rfl (hs.not_driving (by simp [he])) rfl hs.rx_bound
  | tooLarge _ hidle => exact .of_idle hidle (hfree hidle) (hnone hidle) hs.rx_bound
  | stored b hidle hroom => exact .of_idle hidle (hfree hidle) (hnone hidle) hroom
  | discarded b hidle => exact .of_idle hidle (hfree hidle) (hnone hidle) (Nat.zero_le _)
  | requestFaults _ hidle => exact .of_fault rfl (hfree hidle) hs.rx_bound
  | candidateFaults hidle | noackFaults d hidle => exact .of_fault rfl (hfree hidle) (Nat.zero_le _)
  | ackFaults => exact .of_fault rfl rfl hs.rx_bound
  | noackDelivers d hidle hown hhandler => exact .of_deliver rfl (hfree hidle) rfl hhandler hown (Nat.zero_le _)
  | ackDelivers d he hhandler hd =>
    exact .of_deliver rfl rfl (by simp [hd]) hhandler (hs.own_known (by simp [he]) (by simp [he])) hs.rx_bound
  | requestStarts m n _ hidle hown hfit =>
    exact .of_transmitting (.inl rfl) rfl ⟨Nat.le_add_left 7 n, hfit, le_rfl, Nat.le_add_left 1 _⟩
      (fun _ => hnone hidle) nofun hown hs.rx_bound
  | ackStarts d m hidle hown =>
    exact .of_transmitting (.inr rfl) rfl ⟨le_rfl, bufCap_pos _, le_rfl, Nat.le_add_left 1 6⟩
      nofun (fun _ => ⟨rfl, rfl⟩) hown (Nat.zero_le _)
  | sends htx hmore =>
    obtain ⟨hmin, hcap, -, -⟩ := hs.tx_bounds htx
    obtain ⟨hidle, -, hfault⟩ := Transmitting.ne_others htx
    exact .of_transmitting htx (hs.drive_iff.2 htx) ⟨hmin, hcap, Nat.le_add_left 1 _, hmore⟩
      (fun he => hs.none_due (.inr he)) hs.ack_frame
      (hs.own_known hidle hfault) hs.rx_bound
  | answers he => exact .of_idle rfl rfl (hs.none_due (.inr he)) hs.rx_bound

/-! ### The buffers -/

/-- A move that writes neither buffer keeps what is known of them, if it makes no longer range of them meaningful. -/
theorem BufferInv.of_same_buffers {s t : State} (hs : BufferInv s) (hparams : t.params = s.params)
    (hrx : t.rxBuf = s.rxBuf) (htx : t.txBuf = s.txBuf) (hlen : t.rxLen ≤ s.rxLen)
    (hsent : Transmitting t.eng → Transmitting s.eng ∧ t.txLen = s.txLen) : BufferInv t where
  rx_ok := by rw [hparams, hrx]; exact hs.rx_ok
  tx_ok := by rw [hparams, htx]; exact hs.tx_ok
  rx_written := by rw [hrx]; exact fun i hi => hs.rx_written i (hi.trans_le hlen)
  tx_written := fun he => by
    obtain ⟨hbefore, htxLen⟩ := hsent he
    rw [htx, htxLen]
    exact hs.tx_written hbefore

theorem Memory.writtenTo_zero (m : Memory) : m.writtenTo 0 := fun i hi => absurd hi (Nat.not_lt_zero i)

theorem Memory.okFor_nil (cap : Nat) : Memory.okFor cap [] := ⟨List.Pairwise.nil, nofun⟩

/-- Empty buffers of which nothing is meaningful. -/
theorem BufferInv.of_empty {s : State} (he : s.eng = .idle) (hrx : s.rxBuf = []) (hlen : s.rxLen = 0)
    (htx : s.txBuf = []) : BufferInv s where
  rx_ok := by rw [hrx]; exact Memory.okFor_nil _
  tx_ok := by rw [htx]; exact Memory.okFor_nil _
  rx_written := by rw [hlen]; exact Memory.writtenTo_zero _
  tx_written := by simp [he]

/-- R141: after the byte at the cursor, the accumulator is written one further. -/
theorem Memory.writtenTo_write {m : Memory} {n : Nat} (h : m.writtenTo n) (v : Byte) : (m.write n v).writtenTo (n + 1) := by
  intro i hi
  obtain rfl | hlt := (Nat.lt_succ_iff.1 hi).eq_or_lt
  · simp
  · rw [Memory.read_write_ne _ _ hlt.ne]
    exact h i hlt

theorem Move.keeps_bufferInv {i : Instr} {s t : State} (h : Move s i t) (hs : BufferInv s) : BufferInv t := by
  cases h with
  | reset => exact .of_empty rfl rfl rfl rfl
  | stored b hidle hroom =>
    exact ⟨Memory.write_okFor hs.rx_ok hroom b, hs.tx_ok, Memory.writtenTo_write hs.rx_written b, hs.tx_written⟩
  | requestStarts m n _ _ _ _ _ hwritten hok => exact ⟨hs.rx_ok, hok hs.tx_ok, hs.rx_written, fun _ => hwritten⟩
  | ackStarts d m _ _ _ hwritten hok => exact ⟨hs.rx_ok, hok hs.tx_ok, Memory.writtenTo_zero _, fun _ => hwritten⟩
  | discarded => exact hs.of_same_buffers rfl rfl rfl (Nat.zero_le _) fun he => ⟨he, rfl⟩
  | candidateFaults | noackFaults | noackDelivers => exact hs.of_same_buffers rfl rfl rfl (Nat.zero_le _) (by simp)
  | requestFaults | accepted | answers | ackFaults | ackDelivers =>
    exact hs.of_same_buffers rfl rfl rfl le_rfl (by simp)
  | unchanged | configured | handlerSet | tooLarge | sends =>
    exact hs.of_same_buffers rfl rfl rfl le_rfl fun he => ⟨he, rfl⟩

/-! ### Reset and step -/

/-- Settles O49: idle, released, nothing due, and empty buffers. -/
theorem resetMeetsTheInvariant : Obligations.ResetMeetsTheInvariant :=
  ⟨.of_idle rfl rfl rfl (Nat.zero_le _), .of_empty rfl rfl rfl rfl⟩

/-- The invariant says nothing of the presented records, the outputs and the count of resets. -/
theorem Inv.of_outside {s : State} (h : Inv s) (rest : List Record) (out : List Output) (n : Nat) :
    Inv { s with pending := rest, out := out, resets := n } :=
  ⟨⟨h.block.drive_iff, h.block.tx_bounds, h.block.ack_frame, h.block.offered, h.block.none_due, h.block.rx_bound,
    h.block.own_known⟩, ⟨h.buffers.rx_ok, h.buffers.tx_ok, h.buffers.rx_written, h.buffers.tx_written⟩⟩

theorem Move.keeps_inv {i : Instr} {s t : State} (h : Move s i t) (hs : Inv s) : Inv t :=
  ⟨h.keeps_blockInv hs.block, h.keeps_bufferInv hs.buffers⟩

/-- Settles O50: a waiting step changes only the outputs, and every move keeps both halves of the invariant. -/
theorem everyStepKeepsTheInvariant : Obligations.EveryStepKeepsTheInvariant := by
  intro s t hs h
  obtain ⟨-, rfl⟩ | ⟨i, rest, -, -, -, hmove⟩ := step_move h
  · exact hs.of_outside s.pending [] s.resets
  · exact hmove.keeps_inv (hs.of_outside rest [] s.resets)

end Sys2Proof.Machine
end

section
/-! PROOFS. From a state that meets the invariant every input event is answered, and the same whatever the free contents of
the buffers are: spec/20_memory.md section 1, spec/43_transmit_arbiter.md section 1. -/

namespace Sys2Proof.Machine

/-- A row answers a next state whatever the count of resets, and so the free contents of both buffers (log 7), is; and those
next states differ in that count alone. -/
def Steady (i : Instr) (s : State) : Prop :=
  ∃ t : Nat → State, (∀ n, exec i { s with resets := n } = .next (t n)) ∧ ∀ n m, t m = { t n with resets := m }

theorem steady_of_held {i : Instr} {s : State} (hi : isInput i = true) (hheld : held i s.eng = true) : Steady i s :=
  ⟨_, fun _ => exec_of_held hi hheld, fun _ _ => rfl⟩

/-! ### Requests -/

theorem steady_transmit {s : State} (dst cmd : Byte) (payload : List Byte) (hidle : s.eng = .idle) :
    Steady (.transmit dst cmd payload) s := by
  by_cases hlarge : s.params.bufCap ≤ 6 + payload.length
  · exact ⟨_, fun n => oversizedTransmitIsAnswered { s with resets := n } dst cmd payload hidle hlarge, fun _ _ => rfl⟩
  have hfit := Nat.not_le.1 hlarge
  cases hown : s.ownSet with
  | false => exact ⟨_, fun n => exec_transmit_unset (s := { s with resets := n }) hidle hown hfit, fun _ _ => rfl⟩
  | true =>
    obtain ⟨m, -, -, hstart⟩ := exists_frame_started s dst cmd (payload := payload) (by omega)
    exact ⟨_, fun n => (exec_transmit_fitting (s := { s with resets := n }) hidle hfit).trans
      (hstart .txApp { s with resets := n } rfl hown rfl rfl), fun _ _ => rfl⟩

/-! ### Received bytes -/

/-- The bytes of a written accumulator are none of the free values. -/
theorem exists_accumulatorIs_resets {s : State} (hs : Inv s) :
    ∃ acc, ∀ n, AccumulatorIs { s with resets := n } acc := by
  obtain ⟨acc, hacc⟩ := exists_accumulatorIs hs.block.rx_bound
  refine ⟨acc, fun n => ⟨hacc.len, hacc.fits, fun i hi => ?_⟩⟩
  obtain ⟨b, hb⟩ := Option.isSome_iff_exists.1 (hs.buffers.rx_written i (by rw [hacc.len]; exact hi))
  rw [hacc.bytes i hi, State.rxAt, State.rxAt, Memory.byteAt_of_read _ hb, Memory.byteAt_of_read _ hb]

section ForThisNode

variable {s : State} {acc : List Byte} {f : Frame} (hidle : s.eng = .idle)
  (hacc : ∀ n, AccumulatorIs { s with resets := n } acc) (hdec : decodeFrame (s.params.marker :: acc) = .ok f)
  (hown : s.ownSet = true) (hdst : f.dst = s.ownAddr)
include hidle hacc hdec hown hdst

/-- A boundary whose candidate is for this node answers in each of the three classes. -/
theorem steady_boundary_here : Steady (.rxByte s.params.marker) s := by
  have hrow : Instr.rxByte s.params.marker ∈ [Instr.rxByte s.params.marker, .rxByteTerminator] := List.mem_cons_self
  cases hclass : cmdClass s.params f.cmd with
  | ack =>
    exact ⟨_, fun n => exec_boundary_ack (s := { s with resets := n }) hidle hown hdst (hacc n) hdec hrow hclass,
      fun _ _ => rfl⟩
  | noack =>
    have hbound n := exec_boundary_noack (s := { s with resets := n }) hidle hown hdst (hacc n) hdec hrow hclass
    cases hhandler : s.handlerSet with
    | true =>
      exact ⟨_, fun n => (hbound n).trans
        (execFrameNoack_handler (s := { s with resets := n, rxLen := 0 }) hidle hown hdst hclass hhandler), fun _ _ => rfl⟩
    | false =>
      exact ⟨_, fun n => (hbound n).trans
        (execFrameNoack_no_handler (s := { s with resets := n, rxLen := 0 }) hidle hown hdst hclass hhandler), fun _ _ => rfl⟩
  | addressed =>
    obtain ⟨m, -, -, hstart⟩ := exists_frame_started s f.src s.params.ackCode (payload := []) (bufCap_pos s.params)
    exact ⟨_, fun n =>
      (exec_boundary_addressed (s := { s with resets := n }) hidle hown hdst hclass (hacc n) hdec hrow).trans <|
      (execFrameAddressed_selected (s := { s with resets := n, rxLen := 0 }) hidle hown hdst hclass).trans <|
      hstart .txAck (capture f { s with resets := n, rxLen := 0 }) rfl hown rfl rfl, fun _ _ => rfl⟩

end ForThisNode

theorem steady_boundary {s : State} (hs : Inv s) (hidle : s.eng = .idle) : Steady (.rxByte s.params.marker) s := by
  obtain ⟨acc, hacc⟩ := exists_accumulatorIs_resets hs
  cases hdec : decodeFrame (s.params.marker :: acc) with
  | error e =>
    exact ⟨_, fun n => (undecodableCandidateIsDiscarded { s with resets := n } acc e hidle (hacc n) hdec).1, fun _ _ => rfl⟩
  | ok f =>
    have haddress n := addressCheckDiscardsOrFaults { s with resets := n } acc f hidle (hacc n) hdec
    cases hown : s.ownSet with
    | false => exact ⟨_, fun n => ((haddress n).2 hown).1, fun _ _ => rfl⟩
    | true =>
      by_cases hdst : f.dst = s.ownAddr
      · exact steady_boundary_here hidle hacc hdec hown hdst
      · exact ⟨_, fun n => ((haddress n).1 hown hdst).1, fun _ _ => rfl⟩

theorem steady_rxByte_idle {s : State} (b : Byte) (hs : Inv s) (hidle : s.eng = .idle) : Steady (.rxByte b) s := by
  by_cases hb : b = s.params.marker
  · rw [hb]
    exact steady_boundary hs hidle
  have hdata n := (exec_rxByte_data (s := { s with resets := n }) hb).trans (exec_rxByteData_idle hidle hb)
  obtain hfull | hroom := hs.block.rx_bound.eq_or_lt
  · exact ⟨_, fun n => (hdata n).trans (accumulate_of_full b hfull), fun _ _ => rfl⟩
  · exact ⟨_, fun n => (hdata n).trans (accumulate_of_room hroom), fun _ _ => rfl⟩

/-! ### `TX_DONE` -/

/-- The byte outstanding next has been written, so it is none of the free values. -/
theorem steady_txDone_sends {s : State} (hs : Inv s) (htx : Transmitting s.eng) (hmore : s.txIdx < s.txLen) :
    Steady .txDone s := by
  obtain ⟨-, hcap, -, -⟩ := hs.block.tx_bounds htx
  obtain ⟨b, hb⟩ := Option.isSome_iff_exists.1 (hs.buffers.tx_written htx s.txIdx hmore)
  refine ⟨fun n => { s with resets := n, txIdx := s.txIdx + 1, out := s.out ++ [.sendByte b] }, fun n => ?_, fun _ _ => rfl⟩
  have hbyte : State.txAt { s with resets := n } s.txIdx = b := Memory.byteAt_of_read _ hb
  rw [exec_txDone_of_lt (s := { s with resets := n }) htx hmore (hmore.trans_le hcap), hbyte]

theorem steady_txDone_ack_sent {s : State} (hs : Inv s) (hack : s.eng = .txAck) (hsent : s.txLen ≤ s.txIdx) :
    Steady .txDone s := by
  have hrow n := txDoneInTxAckSendsOrDelivers { s with resets := n } hack
  cases hhandler : s.handlerSet with
  | false => exact ⟨_, fun n => (hrow n).2.2 hsent hhandler, fun _ _ => rfl⟩
  | true =>
    obtain ⟨d, hd⟩ := Option.isSome_iff_exists.1 (hs.block.ack_frame hack).2
    exact ⟨_, fun n => (hrow n).2.1 d hsent hhandler hd, fun _ _ => rfl⟩

theorem steady_txDone {s : State} (hs : Inv s) : Steady .txDone s := by
  by_cases hmore : Transmitting s.eng ∧ s.txIdx < s.txLen
  · exact steady_txDone_sends hs hmore.1 hmore.2
  cases he : s.eng with
  | idle => exact ⟨_, fun n => (droppedEventsHaveNoEffect { s with resets := n } 0).2.1 (.inl he), fun _ _ => rfl⟩
  | deliver => exact ⟨_, fun n => (droppedEventsHaveNoEffect { s with resets := n } 0).2.1 (.inr he), fun _ _ => rfl⟩
  | fault => exact steady_of_held rfl (decide_eq_true he)
  | txApp =>
    have hsent : s.txLen ≤ s.txIdx := Nat.not_lt.1 fun hlt => hmore ⟨.inl he, hlt⟩
    exact ⟨_, fun n => lastTxDoneAnswersTheRequest { s with resets := n } he hsent, fun _ _ => rfl⟩
  | txAck => exact steady_txDone_ack_sent hs he (Nat.not_lt.1 fun hlt => hmore ⟨.inr he, hlt⟩)

/-! ### All input events -/

theorem steady_deliverAccept (s : State) : Steady .deliverAccept s := by
  have hdrop n := (droppedEventsHaveNoEffect { s with resets := n } 0).2.2
  cases he : s.eng with
  | idle => exact ⟨_, fun n => hdrop n (.inl he), fun _ _ => rfl⟩
  | txApp => exact ⟨_, fun n => hdrop n (.inr (.inl he)), fun _ _ => rfl⟩
  | txAck => exact ⟨_, fun n => hdrop n (.inr (.inr he)), fun _ _ => rfl⟩
  | deliver => exact ⟨_, fun n => deliverAcceptEndsTheDelivery { s with resets := n } he, fun _ _ => rfl⟩
  | fault => exact steady_of_held rfl (decide_eq_true he)

theorem steady_rxByte {s : State} (b : Byte) (hs : Inv s) : Steady (.rxByte b) s := by
  cases he : s.eng with
  | idle => exact steady_rxByte_idle b hs he
  | txApp => exact ⟨_, fun n => ((droppedEventsHaveNoEffect { s with resets := n } b).1 (.inl he)).1, fun _ _ => rfl⟩
  | txAck => exact ⟨_, fun n => ((droppedEventsHaveNoEffect { s with resets := n } b).1 (.inr he)).1, fun _ _ => rfl⟩
  | deliver => exact steady_of_held rfl (decide_eq_true (.inl he))
  | fault => exact steady_of_held rfl (decide_eq_true (.inr he))

/-- 43 R170 under the invariant: every input event but `RESET`, which draws the free contents anew. -/
theorem steady_input {s : State} {i : Instr} (hs : Inv s) (hi : isInput i = true) (hne : i ≠ .reset) : Steady i s := by
  by_cases hheld : held i s.eng = true
  · exact steady_of_held hi hheld
  cases i with
  | reset => exact absurd rfl hne
  | rxByte b => exact steady_rxByte b hs
  | txDone => exact steady_txDone hs
  | configure a =>
    exact ⟨_, fun n => configureSetsTheOwnAddress { s with resets := n } a fun he => hheld (decide_eq_true he),
      fun _ _ => rfl⟩
  | setHandler =>
    exact ⟨_, fun n => setHandlerSetsItsFlag { s with resets := n } fun he => hheld (decide_eq_true he), fun _ _ => rfl⟩
  | transmit dst cmd payload => exact steady_transmit dst cmd payload (by simpa [held] using hheld)
  | transmitError dst code => exact steady_transmit dst code [] (by simpa [held] using hheld)
  | deliverAccept => exact steady_deliverAccept s
  | _ => cases hi

theorem exec_reset_resets (s : State) (n : Nat) :
    ∃ t : State, exec .reset s = .next t ∧ exec .reset { s with resets := n } = .next { t with resets := n + 1 } := by
  refine ⟨_, rfl, ?_⟩
  cases hd : s.drive <;> simp [exec, execReset, hd, emit, resetElements]

/-- Every input event has a next state, and with the free contents drawn anew the same one but for the count of resets. -/
theorem exec_input_answers {s : State} {i : Instr} (hs : Inv s) (hi : isInput i = true) (n : Nat) :
    ∃ (t : State) (k : Nat), exec i s = .next t ∧ exec i { s with resets := n } = .next { t with resets := k } := by
  by_cases hne : i = .reset
  · obtain ⟨t, hreset, hdrawn⟩ := exec_reset_resets s n
    exact ⟨t, n + 1, hne ▸ hreset, hne ▸ hdrawn⟩
  · obtain ⟨t, ht, hsame⟩ := steady_input hs hi hne
    exact ⟨t s.resets, n, ht s.resets, (ht n).trans (congrArg _ (hsame s.resets n))⟩

/-- Settles O52: the answer at the present count of resets. -/
theorem everyInputEventIsAnswered : Obligations.EveryInputEventIsAnswered := by
  intro s i hs hi
  obtain ⟨t, -, ht, -⟩ := exec_input_answers hs hi 0
  exact ⟨t, ht⟩

/-- Settles O51: a step that waits or is refused does not fault, and the event it takes is answered. -/
theorem noStepFaults : Obligations.NoStepFaults := by
  intro s f hs h
  unfold step at h
  split at h
  · cases h
  · cases h
  next i rest hfetch =>
    obtain ⟨-, r, -, hr⟩ := fetch_take_inv hfetch
    obtain ⟨t, ht⟩ := everyInputEventIsAnswered _ i (hs.of_outside rest [] s.resets) (decodeInput_isInput hr)
    cases ht.symm.trans h

/-- Settles O57: the same event is fetched, and its row answers the same but for the count. -/
theorem unwrittenBytesAreNeverUsed : Obligations.UnwrittenBytesAreNeverUsed := by
  intro s t n hs h
  obtain ⟨hwaits, rfl⟩ | ⟨i, rest, hfetch, hi, -, hx⟩ := step_next h
  · exact ⟨n, by simp only [step, hwaits, beginStep]⟩
  · obtain ⟨u, k, hu, hdrawn⟩ := exec_input_answers (hs.of_outside rest [] s.resets) hi n
    cases hu.symm.trans hx
    exact ⟨k, by simp only [step, hfetch]; exact hdrawn⟩

end Sys2Proof.Machine
end

section
/-! PROOFS. Runs: one result for each request, what a fault ends, and what a finished run is: spec/43_transmit_arbiter.md
section 7, spec/60_exceptions.md section 3, spec/70_reset_and_hazards.md section 4. -/

namespace Sys2Proof.Machine

open Host (Core)

/-! ### One step of a run, and what is counted along it -/

theorem run_succ {k : Nat} {s t : State} :
    Core.run core (k + 1) s = .next t ↔ ∃ u, step s = .next u ∧ Core.run core k u = .next t := by
  cases h : step s <;> simp [Core.run, core, h]

theorem resetIn_succ {k : Nat} {s u : State} (h : step s = .next u) :
    resetIn (k + 1) s = false ↔ taken s ≠ some .reset ∧ resetIn k u = false := by
  simp [resetIn, h]

theorem requestsIn_succ {s u : State} (h : step s = .next u) (k : Nat) :
    requestsIn (k + 1) s = (takesRequest s).toNat + requestsIn k u := by
  simp only [requestsIn, h]

theorem resultsIn_succ {s u : State} (h : step s = .next u) (k : Nat) :
    resultsIn (k + 1) s = u.out.countP Output.isResult + resultsIn k u := by
  simp only [resultsIn, h]

theorem answered_succ {k : Nat} {s u : State} (h : step s = .next u) :
    answered (k + 1) s = true ↔ taken s ≠ some .reset ∧ (u.out.any Output.isResult = true ∨ answered k u = true) := by
  simp [answered, h]

theorem allAnswered_succ {k : Nat} {s u : State} (h : step s = .next u) :
    allAnswered (k + 1) s = true ↔ (takesRequest s = true → answered (k + 1) s = true) ∧ allAnswered k u = true := by
  cases hreq : takesRequest s <;> simp [allAnswered, h, hreq]

/-- A run in two parts. -/
theorem run_add {j m : Nat} {s t : State} (h : Core.run core (j + m) s = .next t) :
    ∃ u, Core.run core j s = .next u ∧ Core.run core m u = .next t ∧
      (resetIn (j + m) s = false → resetIn m u = false) := by
  induction j generalizing s with
  | zero =>
    rw [Nat.zero_add] at h ⊢
    exact ⟨s, rfl, h, id⟩
  | succ j ih =>
    rw [Nat.succ_add] at h ⊢
    obtain ⟨v, hstep, hrun⟩ := run_succ.1 h
    obtain ⟨u, hju, hmu, hreset⟩ := ih hrun
    exact ⟨u, run_succ.2 ⟨v, hstep, hju⟩, hmu, fun hno => hreset ((resetIn_succ hstep).1 hno).2⟩

/-! ### Runs in `FAULT` -/

theorem taken_inv {s : State} {i : Instr} (h : taken s = some i) : isInput i = true ∧ held i s.eng = false := by
  unfold taken at h
  split at h
  next j rest hfetch =>
    cases h
    obtain ⟨hheld, r, -, hr⟩ := fetch_take_inv hfetch
    exact ⟨decodeInput_isInput hr, hheld⟩
  next => cases h

/-- A faulted block that takes no `RESET` takes nothing (R221). -/
theorem takesRequest_of_fault {s : State} (hfault : Failed s) (hreset : taken s ≠ some .reset) :
    takesRequest s = false := by
  cases htaken : taken s with
  | none => simp only [takesRequest, htaken]
  | some i =>
    obtain ⟨hi, hheld⟩ := taken_inv htaken
    rw [hfault] at hheld
    exact absurd (htaken.trans (congrArg some (eq_reset_of_not_held_fault hi hheld))) hreset

/-- Settles O58: by induction on the steps, each of which waits. -/
theorem faultLastsUntilReset : Obligations.FaultLastsUntilReset := by
  intro k
  induction k with
  | zero =>
    intro s t hfault _ h
    cases h
    exact ⟨hfault, rfl, rfl, rfl⟩
  | succ k ih =>
    intro s t hfault hreset h
    obtain ⟨u, hstep, hrun⟩ := run_succ.1 h
    obtain ⟨htaken, hreset⟩ := (resetIn_succ hstep).1 hreset
    obtain rfl := (faultIsLeftByResetOnly s u hfault hstep).resolve_right htaken
    obtain ⟨hfailed, hsame, hrequests, hresults⟩ := ih { s with out := [] } t hfault hreset hrun
    refine ⟨hfailed, hsame, ?_, ?_⟩
    · rw [requestsIn_succ hstep, takesRequest_of_fault hfault htaken, hrequests]
      rfl
    · rw [resultsIn_succ hstep, hresults]
      rfl

/-- Without a `RESET`, a run that does not end in `FAULT` was never in it. -/
theorem not_failed_of_run {k : Nat} {s t : State} (h : Core.run core k s = .next t) (hreset : resetIn k s = false)
    (ht : t.eng ≠ .fault) : s.eng ≠ .fault :=
  fun hs => ht (faultLastsUntilReset k s t hs hreset h).1

/-! ### One result for each request -/

/-- Settles O30: by induction on the steps, `step_answers` being the law of one. -/
theorem everyAcceptedRequestHasOneResult : Obligations.EveryAcceptedRequestHasOneResult := by
  intro k
  induction k with
  | zero =>
    intro s t h _ _
    cases h
    rfl
  | succ k ih =>
    intro s t h hreset ht
    obtain ⟨u, hstep, hrun⟩ := run_succ.1 h
    obtain ⟨htaken, hreset⟩ := (resetIn_succ hstep).1 hreset
    have hone := step_answers hstep htaken (not_failed_of_run hrun hreset ht)
    have hrest := ih u t hrun hreset ht
    rw [requestsIn_succ hstep, resultsIn_succ hstep]
    omega

/-- A request is open at `s`: accepted by the next step, or in progress (43 R191). -/
def OpenRequest (s : State) : Prop := takesRequest s = true ∨ s.eng = .txApp

/-- What is open before a step that does not fault is answered in it or in progress after it. -/
theorem OpenRequest.step {s u : State} (hopen : OpenRequest s) (hstep : step s = .next u)
    (htaken : taken s ≠ some .reset) (hu : u.eng ≠ .fault) : u.out.any Output.isResult = true ∨ u.eng = .txApp := by
  have hlaw := step_answers hstep htaken hu
  have hpos : 0 < (takesRequest s).toNat + (decide (s.eng = .txApp)).toNat := by
    obtain h | h := hopen <;> simp [h]
  by_cases happ : u.eng = .txApp
  · exact .inr happ
  · rw [hlaw, decide_eq_false happ, Bool.toNat_false, Nat.add_zero, List.countP_pos_iff] at hpos
    exact .inl (List.any_eq_true.2 hpos)

/-- Steps that take no `RESET` and reach `IDLE` answer the request in progress at their start. -/
theorem answered_of_txApp {k : Nat} {s t : State} (h : Core.run core k s = .next t) (hreset : resetIn k s = false)
    (ht : t.eng = .idle) (happ : s.eng = .txApp) : answered k s = true := by
  induction k generalizing s with
  | zero =>
    cases h
    rw [happ] at ht
    cases ht
  | succ k ih =>
    obtain ⟨u, hstep, hrun⟩ := run_succ.1 h
    obtain ⟨htaken, hreset⟩ := (resetIn_succ hstep).1 hreset
    have hu := not_failed_of_run hrun hreset (by simp [ht])
    refine (answered_succ hstep).2 ⟨htaken, ?_⟩
    exact (OpenRequest.step (.inr happ) hstep htaken hu).imp_right (ih hrun hreset)

/-- They answer each request accepted on the way. -/
theorem allAnswered_of_idle {k : Nat} {s t : State} (h : Core.run core k s = .next t) (hreset : resetIn k s = false)
    (ht : t.eng = .idle) : allAnswered k s = true := by
  induction k generalizing s with
  | zero => rfl
  | succ k ih =>
    obtain ⟨u, hstep, hrun⟩ := run_succ.1 h
    obtain ⟨htaken, hreset⟩ := (resetIn_succ hstep).1 hreset
    have hu := not_failed_of_run hrun hreset (by simp [ht])
    refine (allAnswered_succ hstep).2 ⟨fun hreq => (answered_succ hstep).2 ⟨htaken, ?_⟩, ih hrun hreset⟩
    exact (OpenRequest.step (.inl hreq) hstep htaken hu).imp_right (answered_of_txApp hrun hreset ht)

/-- In `IDLE` the block holds no event (43 R170). -/
theorem held_idle (i : Instr) : held i .idle = false := by
  cases i <;> rfl

/-- Settles O31: no state on the way was `FAULT`, or the last would be; nothing is held in `IDLE`; and every request is
answered. -/
theorem runThatReachesIdleIsFinished : Obligations.RunThatReachesIdleIsFinished := by
  intro k s t hreset h ht
  refine ⟨fun j hj u hu => ?notFailed, t, h, ht, fun r _ i _ => ?notHeld, answered_of_txApp h hreset ht,
    allAnswered_of_idle h hreset ht⟩
  case notFailed =>
    obtain ⟨m, rfl⟩ := Nat.exists_eq_add_of_le hj
    obtain ⟨v, hv, hrun, hrest⟩ := run_add h
    cases hu.symm.trans hv
    exact not_failed_of_run hrun (hrest hreset) (by simp [ht])
  case notHeld => rw [ht, held_idle]

/-! ### Runs that are never finished -/

theorem not_finished_of_failed_step {s u : State} (hstep : step s = .next u) (hu : Failed u) {k : Nat} (hk : 1 ≤ k) :
    ¬ Finished k s :=
  fun hfinished => hfinished.1 1 hk u (run_succ.2 ⟨u, hstep, rfl⟩) hu

/-- The accumulator does not depend on the presented records and the outputs. -/
theorem AccumulatorIs.of_outside {s : State} {acc : List Byte} (h : AccumulatorIs s acc) (rest : List Record) :
    AccumulatorIs { s with pending := rest, out := [] } acc := ⟨h.len, h.fits, h.bytes⟩

/-- An event that answers a faulted state, whatever else is presented, takes the block to `FAULT`. -/
theorem step_failed_of_exec {s : State} {i : Instr} (htaken : taken s = some i)
    (hfails : ∀ rest, ∃ u, exec i { s with pending := rest, out := [] } = .next u ∧ Failed u) :
    ∃ u, step s = .next u ∧ Failed u := by
  obtain ⟨rest, hstep⟩ := step_of_taken htaken
  rw [hstep]
  exact hfails rest

/-- Settles O59: each cause is a row whose answer in `FAULT` is known, and a run through `FAULT` is not finished. -/
theorem faultedRunIsNeverFinished : Obligations.FaultedRunIsNeverFinished := by
  intro s hcause
  suffices hfails : ∃ u, step s = .next u ∧ Failed u by
    obtain ⟨u, hstep, hu⟩ := hfails
    exact ⟨⟨u, hstep, hu⟩, fun k hk => not_finished_of_failed_step hstep hu hk⟩
  obtain ⟨hidle, hunset, ⟨dst, cmd, payload, htaken, hfit⟩ | ⟨dst, code, htaken⟩⟩ |
    ⟨hidle, htaken, acc, f, hacc, hdec, hunset | ⟨hown, hhandler, hdst, hack, hbroadcast⟩⟩ |
    ⟨hack, hsent, hhandler, htaken⟩ := hcause
  case inl.inl => exact step_failed_of_exec htaken fun rest => ⟨_, exec_transmit_unset hidle hunset hfit, rfl⟩
  case inl.inr =>
    exact step_failed_of_exec htaken fun rest =>
      ⟨_, exec_transmit_unset (payload := []) hidle hunset (empty_fits s.params), rfl⟩
  case inr.inl.inl =>
    exact step_failed_of_exec htaken fun rest =>
      ⟨_, exec_boundary_unset hidle hunset (hacc.of_outside rest) hdec List.mem_cons_self, rfl⟩
  case inr.inl.inr =>
    have hclass := cmdClass_noack hack hbroadcast
    exact step_failed_of_exec htaken fun rest =>
      ⟨_, (exec_boundary_noack (s := { s with pending := rest, out := [] }) hidle hown hdst (hacc.of_outside rest) hdec
        List.mem_cons_self hclass).trans
        (execFrameNoack_no_handler (s := { s with pending := rest, out := [], rxLen := 0 })
          hidle hown hdst hclass hhandler), rfl⟩
  case inr.inr =>
    exact step_failed_of_exec htaken fun rest =>
      ⟨_, (txDoneInTxAckSendsOrDelivers { s with pending := rest, out := [] } hack).2.2 hsent hhandler, rfl⟩

/-- A request is accepted in `IDLE` only (R173). -/
theorem idle_of_takesRequest {s : State} (h : takesRequest s = true) : s.eng = .idle := by
  unfold takesRequest at h
  split at h
  next i htaken =>
    have hheld := (taken_inv htaken).2
    rw [held_of_isRequest h] at hheld
    simpa using hheld
  next => cases h

/-- A step into `TX_APP` takes no `RESET`, and the request in progress after it is open before it and not answered in it. -/
theorem openRequest_of_step_txApp {s u : State} (hstep : step s = .next u) (happ : u.eng = .txApp) :
    OpenRequest s ∧ u.out.any Output.isResult = false := by
  have htaken : taken s ≠ some .reset := by
    intro hreset
    obtain ⟨rest, hexec⟩ := step_of_taken hreset
    rw [hexec] at hstep
    cases hstep
    cases happ
  have hlaw := step_answers hstep htaken (by simp [happ])
  rw [decide_eq_true happ, Bool.toNat_true] at hlaw
  have hone : (takesRequest s).toNat + (decide (s.eng = .txApp)).toNat ≤ 1 := by
    cases hreq : takesRequest s with
    | false => simpa using Bool.toNat_le _
    | true => simp [idle_of_takesRequest hreq]
  have hnone : u.out.countP Output.isResult = 0 := by omega
  constructor
  · cases hreq : takesRequest s with
    | true => exact .inl hreq
    | false =>
      by_contra hclosed
      have hne : s.eng ≠ .txApp := fun he => hclosed (.inr he)
      simp [hreq, hne] at hlaw
  · simpa [List.countP_eq_zero] using hnone

theorem answered_of_reset {s : State} (h : taken s = some .reset) (k : Nat) : answered k s = false := by
  cases k with
  | zero => rfl
  | succ k =>
    cases hstep : step s with
    | next u => exact Bool.eq_false_iff.2 fun ha => ((answered_succ hstep).1 ha).1 h
    | fault | refused => simp only [answered, hstep]

/-- The request that a `RESET` abandons after `j` steps was in progress at the start or accepted on the way, so not each of
these has its result (R242). -/
theorem not_allAnswered_of_abandoned {j k : Nat} {s u : State} (hjk : j < k) (hrun : Core.run core j s = .next u)
    (happ : u.eng = .txApp) (hreset : taken u = some .reset) (hstart : s.eng = .txApp → answered k s = true) :
    allAnswered k s ≠ true := by
  induction j generalizing k s with
  | zero =>
    cases hrun
    rw [answered_of_reset hreset] at hstart
    cases hstart happ
  | succ j ih =>
    intro hall
    obtain ⟨v, hstep, hrun⟩ := run_succ.1 hrun
    obtain ⟨k, rfl⟩ := Nat.exists_eq_add_one_of_ne_zero (Nat.ne_zero_of_lt hjk)
    obtain ⟨haccepted, hrest⟩ := (allAnswered_succ hstep).1 hall
    refine ih (Nat.lt_of_succ_lt_succ hjk) hrun (fun hv => ?_) hrest
    obtain ⟨hopen, hnone⟩ := openRequest_of_step_txApp hstep hv
    have hanswered : answered (k + 1) s = true := hopen.elim haccepted hstart
    exact ((answered_succ hstep).1 hanswered).2.resolve_left (by simp [hnone])

/-- Settles O60: a finished run would have answered the abandoned request. -/
theorem abandonedRequestIsNeverFinished : Obligations.AbandonedRequestIsNeverFinished := by
  rintro j k s u hjk hrun happ hreset ⟨-, t, -, -, -, hstart, hall⟩
  exact not_allAnswered_of_abandoned hjk hrun happ hreset hstart hall

end Sys2Proof.Machine
end
